-- ==== Sys2Proof/Word.lean ====
section
/-! DEFINITION. The word, byte and register-index types of the core. -/

namespace Sys2Proof

/-- XLEN = 32: a register, the pc, an address, an instruction word (00_scope.md R6, 10_state.md R11, R15). -/
abbrev Word := BitVec 32

/-- One byte of memory or of the console (00_scope.md R6). -/
abbrev Byte := BitVec 8

/-- A register field rd, rs1, rs2: a 5-bit index read as an unsigned number 0..31 (30_encoding.md R65, end). -/
abbrev RegIdx := BitVec 5

end Sys2Proof
end

