-- ==== Sys2Proof/Config.lean ====
section
/-! DEFINITION. The implementation parameters of 00_scope.md R6. They are plain data, so that every
statement can be made for every value of them. -/

namespace Sys2Proof

/-- DIV_CORNER (41_alu_reg.md R114): what DIV and REM do on a zero divisor and on 0x80000000 / -1. -/
inductive DivCorner
  /-- The values of the standard RISC-V M extension (the default). -/
  | riscvM
  /-- `Fatal(ArithmeticFault, word)`. -/
  | fatal
deriving DecidableEq, Repr

/-- The four parameters a model takes as arguments (00_scope.md R6, INDEX.md). -/
structure Params where
  /-- MEM_SIZE, the number of bytes of memory. -/
  memSize : Nat
  /-- ENTRY_PC, the pc at the start. -/
  entryPc : Word
  /-- ZERO_REG_HARDWIRED: whether register 0 reads zero and discards writes (10_state.md R12). -/
  zeroRegHardwired : Bool
  /-- DIV_CORNER. -/
  divCorner : DivCorner
deriving DecidableEq, Repr

/-- The bounds the spec puts on the parameters: 0 < MEM_SIZE <= 2^32 and ENTRY_PC a multiple of 4
(00_scope.md R6) with ENTRY_PC + 4 <= MEM_SIZE (92_eei_decisions.md D5; log entry 7). -/
abbrev Params.wf (p : Params) : Prop :=
  0 < p.memSize ∧ p.memSize ≤ 2 ^ 32 ∧ p.entryPc.toNat % 4 = 0 ∧ p.entryPc.toNat + 4 ≤ p.memSize

end Sys2Proof
end

