-- ==== Sys2Proof/Syntax.lean ====
section
/-! DEFINITION. The decoder's record (40_decoder.md R82), the 31 instructions (30_encoding.md R59) and
the small enumerations their rules speak of. -/

namespace Sys2Proof

/-- The six formats with the fields each carries (40_decoder.md R82); a field that a format does not
carry is absent. -/
inductive Fields
  | R (rd : RegIdx) (funct3 : BitVec 3) (rs1 rs2 : RegIdx) (funct7 : BitVec 7)
  | I (rd : RegIdx) (funct3 : BitVec 3) (rs1 : RegIdx) (imm : BitVec 12)
  | S (funct3 : BitVec 3) (rs1 rs2 : RegIdx) (immLo : BitVec 5) (immHi : BitVec 7)
  | B (funct3 : BitVec 3) (rs1 rs2 : RegIdx) (immLo : BitVec 5) (immHi : BitVec 7)
  | U (rd : RegIdx) (imm : BitVec 20)
  | J (rd : RegIdx) (imm : BitVec 20)
deriving DecidableEq, Repr

/-- The Instruction record: the fields of one format, "always carrying the raw 32-bit word (for
diagnostics) and a 7-bit opcode" (40_decoder.md R82). -/
structure Record where
  raw : Word
  opcode : BitVec 7
  fields : Fields
deriving DecidableEq, Repr

/-- What the decoder answers: a record, or InvalidOpcode with the raw word (40_decoder.md R81, R85). -/
inductive Decoded
  | record (r : Record)
  | invalidOpcode (word : Word)
deriving DecidableEq, Repr

/-- One constructor per row of the opcode table. The operands are the fields of the row's format, raw
and unextended; every bit of the word that the row does not fix is kept (log entries 11 and 12). -/
inductive Instr
  | add (rd rs1 rs2 : RegIdx)
  | sub (rd rs1 rs2 : RegIdx)
  | mul (rd rs1 rs2 : RegIdx)
  | sll (rd rs1 rs2 : RegIdx)
  | slt (rd rs1 rs2 : RegIdx)
  | xor (rd rs1 rs2 : RegIdx)
  | div (rd rs1 rs2 : RegIdx)
  | srl (rd rs1 rs2 : RegIdx)
  | sra (rd rs1 rs2 : RegIdx)
  | or (rd rs1 rs2 : RegIdx)
  | rem (rd rs1 rs2 : RegIdx)
  | and (rd rs1 rs2 : RegIdx)
  | addi (rd rs1 : RegIdx) (imm : BitVec 12)
  | slli (rd rs1 : RegIdx) (imm : BitVec 12)
  | slti (rd rs1 : RegIdx) (imm : BitVec 12)
  | xori (rd rs1 : RegIdx) (imm : BitVec 12)
  | srli (rd rs1 : RegIdx) (imm : BitVec 12)
  | srai (rd rs1 : RegIdx) (imm : BitVec 12)
  | ori (rd rs1 : RegIdx) (imm : BitVec 12)
  | andi (rd rs1 : RegIdx) (imm : BitVec 12)
  | lui (rd : RegIdx) (imm : BitVec 20)
  | beq (rs1 rs2 : RegIdx) (immLo : BitVec 5) (immHi : BitVec 7)
  | bne (rs1 rs2 : RegIdx) (immLo : BitVec 5) (immHi : BitVec 7)
  | jal (rd : RegIdx) (imm : BitVec 20)
  | lb (rd rs1 : RegIdx) (imm : BitVec 12)
  | lh (rd rs1 : RegIdx) (imm : BitVec 12)
  | lw (rd rs1 : RegIdx) (imm : BitVec 12)
  | sb (rs1 rs2 : RegIdx) (immLo : BitVec 5) (immHi : BitVec 7)
  | sh (rs1 rs2 : RegIdx) (immLo : BitVec 5) (immHi : BitVec 7)
  | sw (rs1 rs2 : RegIdx) (immLo : BitVec 5) (immHi : BitVec 7)
  | ecall (rd : RegIdx) (funct3 : BitVec 3) (rs1 : RegIdx) (imm : BitVec 12)
deriving DecidableEq, Repr

/-- What reading a word as an instruction answers: the instruction, or one of the two errors by name
(40_decoder.md R86, R90), each with the raw word. -/
inductive Reading
  | instr (i : Instr)
  | invalidOpcode (word : Word)
  | invalidInstruction (word : Word)
deriving DecidableEq, Repr

/-- The operation selector of the ALU, a 12-valued enumeration (41_alu_reg.md R100). -/
inductive AluOp
  | add | sub | mul | sll | slt | xor | div | srl | sra | or | rem | and
deriving DecidableEq, Repr

/-- The condition selector of the branch condition evaluator (43_branch_jump.md R140). -/
inductive Cond
  | eq | ne
deriving DecidableEq, Repr

/-- The access widths (20_memory.md R35). -/
inductive Width
  | byte | half | word
deriving DecidableEq, Repr

end Sys2Proof
end

