-- ==== Sys2Proof/WellFormed.lean ====
section
/-! DEFINITION. Which terms of `Instr` are instructions of the hardware. The widths of the fields are
in their types; what is left to check is immediate bit 10 (word bit 30), which selects between SRLI and
SRAI (30_encoding.md R59, R61). -/

namespace Sys2Proof

/-- SRLI has immediate bit 10 clear and SRAI has it set; every other term is well formed. -/
def Instr.wellFormed : Instr → Bool
  | .srli _ _ imm => imm.getLsbD 10 == false
  | .srai _ _ imm => imm.getLsbD 10 == true
  | .add _ _ _ | .sub _ _ _ | .mul _ _ _ | .sll _ _ _ | .slt _ _ _ | .xor _ _ _ | .div _ _ _
  | .srl _ _ _ | .sra _ _ _ | .or _ _ _ | .rem _ _ _ | .and _ _ _ | .addi _ _ _ | .slli _ _ _
  | .slti _ _ _ | .xori _ _ _ | .ori _ _ _ | .andi _ _ _ | .lui _ _ | .beq _ _ _ _ | .bne _ _ _ _
  | .jal _ _ | .lb _ _ _ | .lh _ _ _ | .lw _ _ _ | .sb _ _ _ _ | .sh _ _ _ _ | .sw _ _ _ _
  | .ecall _ _ _ _ => true

end Sys2Proof
end

