-- ==== Sys2Proof/Decode.lean ====
section
/-! DEFINITION. The decoder (40_decoder.md R81 to R87), the executor's classification (R90), the encoder
written from the format tables of 30_encoding.md, and the assembly of a word from its bytes. -/

namespace Sys2Proof

/-! ### Field extraction (R83, in word bits) -/

def fieldOpcode (w : Word) : BitVec 7 := w.extractLsb' 0 7
def fieldRd (w : Word) : RegIdx := w.extractLsb' 7 5
def fieldFunct3 (w : Word) : BitVec 3 := w.extractLsb' 12 3
def fieldRs1 (w : Word) : RegIdx := w.extractLsb' 15 5
def fieldRs2 (w : Word) : RegIdx := w.extractLsb' 20 5
def fieldFunct7 (w : Word) : BitVec 7 := w.extractLsb' 25 7
def fieldImm12 (w : Word) : BitVec 12 := w.extractLsb' 20 12
def fieldImmLo (w : Word) : BitVec 5 := w.extractLsb' 7 5
def fieldImmHi (w : Word) : BitVec 7 := w.extractLsb' 25 7
def fieldImm20 (w : Word) : BitVec 20 := w.extractLsb' 12 20

/-! ### The decoder -/

/-- The fields a word has under the format its opcode selects, if the opcode is one of the eight of
30_encoding.md R58 (40_decoder.md R84). -/
def fieldsOf (w : Word) : Option Fields :=
  match fieldOpcode w with
  | 0x33#7 => some (.R (fieldRd w) (fieldFunct3 w) (fieldRs1 w) (fieldRs2 w) (fieldFunct7 w))
  | 0x13#7 => some (.I (fieldRd w) (fieldFunct3 w) (fieldRs1 w) (fieldImm12 w))
  | 0x03#7 => some (.I (fieldRd w) (fieldFunct3 w) (fieldRs1 w) (fieldImm12 w))
  | 0x73#7 => some (.I (fieldRd w) (fieldFunct3 w) (fieldRs1 w) (fieldImm12 w))
  | 0x23#7 => some (.S (fieldFunct3 w) (fieldRs1 w) (fieldRs2 w) (fieldImmLo w) (fieldImmHi w))
  | 0x63#7 => some (.B (fieldFunct3 w) (fieldRs1 w) (fieldRs2 w) (fieldImmLo w) (fieldImmHi w))
  | 0x6F#7 => some (.J (fieldRd w) (fieldImm20 w))
  | 0x37#7 => some (.U (fieldRd w) (fieldImm20 w))
  | _ => none

/-- `decode(word) -> Instruction | InvalidOpcode` (40_decoder.md R81, R84, R85): it looks at the opcode
only and accepts every word with a supported one (R86). -/
def decode (w : Word) : Decoded :=
  match fieldsOf w with
  | some f => .record { raw := w, opcode := fieldOpcode w, fields := f }
  | none => .invalidOpcode w

/-! ### The executor's dispatch (R90); the numbers are those of R59 (log entry 8) -/

/-- Opcode 0x33: the whole pair (funct3, funct7) is compared (30_encoding.md R60, log entry 10). -/
def classifyReg (funct3 : BitVec 3) (funct7 : BitVec 7) (rd rs1 rs2 : RegIdx) : Option Instr :=
  match funct3, funct7 with
  | 0#3, 0x00#7 => some (.add rd rs1 rs2)
  | 0#3, 0x20#7 => some (.sub rd rs1 rs2)
  | 0#3, 0x01#7 => some (.mul rd rs1 rs2)
  | 1#3, 0x00#7 => some (.sll rd rs1 rs2)
  | 2#3, 0x00#7 => some (.slt rd rs1 rs2)
  | 4#3, 0x00#7 => some (.xor rd rs1 rs2)
  | 4#3, 0x01#7 => some (.div rd rs1 rs2)
  | 5#3, 0x00#7 => some (.srl rd rs1 rs2)
  | 5#3, 0x20#7 => some (.sra rd rs1 rs2)
  | 6#3, 0x00#7 => some (.or rd rs1 rs2)
  | 6#3, 0x01#7 => some (.rem rd rs1 rs2)
  | 7#3, 0x00#7 => some (.and rd rs1 rs2)
  | _, _ => none

/-- Opcode 0x13: funct3, and immediate bit 10 for funct3 = 5. -/
def classifyImm (funct3 : BitVec 3) (rd rs1 : RegIdx) (imm : BitVec 12) : Option Instr :=
  match funct3 with
  | 0#3 => some (.addi rd rs1 imm)
  | 1#3 => some (.slli rd rs1 imm)
  | 2#3 => some (.slti rd rs1 imm)
  | 4#3 => some (.xori rd rs1 imm)
  | 5#3 => some (if imm.getLsbD 10 then .srai rd rs1 imm else .srli rd rs1 imm)
  | 6#3 => some (.ori rd rs1 imm)
  | 7#3 => some (.andi rd rs1 imm)
  | _ => none

/-- Opcode 0x03. -/
def classifyLoad (funct3 : BitVec 3) (rd rs1 : RegIdx) (imm : BitVec 12) : Option Instr :=
  match funct3 with
  | 0#3 => some (.lb rd rs1 imm)
  | 1#3 => some (.lh rd rs1 imm)
  | 2#3 => some (.lw rd rs1 imm)
  | _ => none

/-- Opcode 0x23. -/
def classifyStore (funct3 : BitVec 3) (rs1 rs2 : RegIdx) (immLo : BitVec 5) (immHi : BitVec 7) :
    Option Instr :=
  match funct3 with
  | 0#3 => some (.sb rs1 rs2 immLo immHi)
  | 1#3 => some (.sh rs1 rs2 immLo immHi)
  | 2#3 => some (.sw rs1 rs2 immLo immHi)
  | _ => none

/-- Opcode 0x63. -/
def classifyBranch (funct3 : BitVec 3) (rs1 rs2 : RegIdx) (immLo : BitVec 5) (immHi : BitVec 7) :
    Option Instr :=
  match funct3 with
  | 0#3 => some (.beq rs1 rs2 immLo immHi)
  | 1#3 => some (.bne rs1 rs2 immLo immHi)
  | _ => none

/-- `classify(i)` (40_decoder.md R90): the three I-format opcodes are told apart by the opcode the
record carries (R84); `none` is InvalidInstruction. -/
def classify (r : Record) : Option Instr :=
  match r.fields with
  | .R rd funct3 rs1 rs2 funct7 => classifyReg funct3 funct7 rd rs1 rs2
  | .I rd funct3 rs1 imm =>
    if r.opcode = 0x13#7 then classifyImm funct3 rd rs1 imm
    else if r.opcode = 0x03#7 then classifyLoad funct3 rd rs1 imm
    else if r.opcode = 0x73#7 then some (.ecall rd funct3 rs1 imm)
    else none
  | .S funct3 rs1 rs2 immLo immHi => classifyStore funct3 rs1 rs2 immLo immHi
  | .B funct3 rs1 rs2 immLo immHi => classifyBranch funct3 rs1 rs2 immLo immHi
  | .U rd imm => some (.lui rd imm)
  | .J rd imm => some (.jal rd imm)

/-- Decoding and classifying in sequence, as the step does (70_reset_and_hazards.md R192): the opcode is
checked before funct3 and funct7 (60_exceptions.md R177). -/
def readInstr (w : Word) : Reading :=
  match decode w with
  | .invalidOpcode raw => .invalidOpcode raw
  | .record r =>
    match classify r with
    | some i => .instr i
    | none => .invalidInstruction r.raw

/-! ### The encoder: the format tables of 30_encoding.md R52 to R57 -/

/-- R format (R52). -/
def wordR (funct7 : BitVec 7) (rs2 rs1 : RegIdx) (funct3 : BitVec 3) (rd : RegIdx) (opcode : BitVec 7) :
    Word :=
  funct7 ++ rs2 ++ rs1 ++ funct3 ++ rd ++ opcode

/-- I format (R53). -/
def wordI (imm : BitVec 12) (rs1 : RegIdx) (funct3 : BitVec 3) (rd : RegIdx) (opcode : BitVec 7) : Word :=
  imm ++ rs1 ++ funct3 ++ rd ++ opcode

/-- S and B formats (R54, R55): the same field positions. -/
def wordS (immHi : BitVec 7) (rs2 rs1 : RegIdx) (funct3 : BitVec 3) (immLo : BitVec 5)
    (opcode : BitVec 7) : Word :=
  immHi ++ rs2 ++ rs1 ++ funct3 ++ immLo ++ opcode

/-- U and J formats (R56, R57): the same field positions. -/
def wordU (imm : BitVec 20) (rd : RegIdx) (opcode : BitVec 7) : Word :=
  imm ++ rd ++ opcode

/-- A record's fields put back at their positions (40_decoder.md R91). -/
def repack (r : Record) : Word :=
  match r.fields with
  | .R rd funct3 rs1 rs2 funct7 => wordR funct7 rs2 rs1 funct3 rd r.opcode
  | .I rd funct3 rs1 imm => wordI imm rs1 funct3 rd r.opcode
  | .S funct3 rs1 rs2 immLo immHi => wordS immHi rs2 rs1 funct3 immLo r.opcode
  | .B funct3 rs1 rs2 immLo immHi => wordS immHi rs2 rs1 funct3 immLo r.opcode
  | .U rd imm => wordU imm rd r.opcode
  | .J rd imm => wordU imm rd r.opcode

/-- The word of a well-formed instruction, from the opcode map of 30_encoding.md R59. -/
def encode : Instr → Word
  | .add rd rs1 rs2 => wordR 0x00#7 rs2 rs1 0#3 rd 0x33#7
  | .sub rd rs1 rs2 => wordR 0x20#7 rs2 rs1 0#3 rd 0x33#7
  | .mul rd rs1 rs2 => wordR 0x01#7 rs2 rs1 0#3 rd 0x33#7
  | .sll rd rs1 rs2 => wordR 0x00#7 rs2 rs1 1#3 rd 0x33#7
  | .slt rd rs1 rs2 => wordR 0x00#7 rs2 rs1 2#3 rd 0x33#7
  | .xor rd rs1 rs2 => wordR 0x00#7 rs2 rs1 4#3 rd 0x33#7
  | .div rd rs1 rs2 => wordR 0x01#7 rs2 rs1 4#3 rd 0x33#7
  | .srl rd rs1 rs2 => wordR 0x00#7 rs2 rs1 5#3 rd 0x33#7
  | .sra rd rs1 rs2 => wordR 0x20#7 rs2 rs1 5#3 rd 0x33#7
  | .or rd rs1 rs2 => wordR 0x00#7 rs2 rs1 6#3 rd 0x33#7
  | .rem rd rs1 rs2 => wordR 0x01#7 rs2 rs1 6#3 rd 0x33#7
  | .and rd rs1 rs2 => wordR 0x00#7 rs2 rs1 7#3 rd 0x33#7
  | .addi rd rs1 imm => wordI imm rs1 0#3 rd 0x13#7
  | .slli rd rs1 imm => wordI imm rs1 1#3 rd 0x13#7
  | .slti rd rs1 imm => wordI imm rs1 2#3 rd 0x13#7
  | .xori rd rs1 imm => wordI imm rs1 4#3 rd 0x13#7
  | .srli rd rs1 imm => wordI imm rs1 5#3 rd 0x13#7
  | .srai rd rs1 imm => wordI imm rs1 5#3 rd 0x13#7
  | .ori rd rs1 imm => wordI imm rs1 6#3 rd 0x13#7
  | .andi rd rs1 imm => wordI imm rs1 7#3 rd 0x13#7
  | .lui rd imm => wordU imm rd 0x37#7
  | .beq rs1 rs2 immLo immHi => wordS immHi rs2 rs1 0#3 immLo 0x63#7
  | .bne rs1 rs2 immLo immHi => wordS immHi rs2 rs1 1#3 immLo 0x63#7
  | .jal rd imm => wordU imm rd 0x6F#7
  | .lb rd rs1 imm => wordI imm rs1 0#3 rd 0x03#7
  | .lh rd rs1 imm => wordI imm rs1 1#3 rd 0x03#7
  | .lw rd rs1 imm => wordI imm rs1 2#3 rd 0x03#7
  | .sb rs1 rs2 immLo immHi => wordS immHi rs2 rs1 0#3 immLo 0x23#7
  | .sh rs1 rs2 immLo immHi => wordS immHi rs2 rs1 1#3 immLo 0x23#7
  | .sw rs1 rs2 immLo immHi => wordS immHi rs2 rs1 2#3 immLo 0x23#7
  | .ecall rd funct3 rs1 imm => wordI imm rs1 funct3 rd 0x73#7

/-! ### Words and bytes (20_memory.md R32, R41) -/

/-- Byte k of a word, byte 0 the least significant. -/
def byteOf (w : Word) (k : Nat) : Byte := w.extractLsb' (8 * k) 8

/-- The word whose bytes at ascending addresses are b0, b1, b2, b3 (little-endian). -/
def wordOfBytes (b0 b1 b2 b3 : Byte) : Word := b3 ++ b2 ++ b1 ++ b0

/-- The word whose low `nbits` bits are those of `w` and whose other bits are 0. -/
def tableWord (nbits w : Nat) : Word := BitVec.ofNat 32 (w % 2 ^ nbits)

/-- The instruction the decoder reads from an opcode-table word laid out in memory, or none. -/
def decodeTableWord (nbits w : Nat) : Option Instr :=
  let v := tableWord nbits w
  match readInstr (wordOfBytes (byteOf v 0) (byteOf v 1) (byteOf v 2) (byteOf v 3)) with
  | .instr i => some i
  | .invalidOpcode _ => none
  | .invalidInstruction _ => none

end Sys2Proof
end

