-- ==== Sys2Proof/Machine/Instantiation.lean ====
section
/-! DEFINITION. The parameter values of `State.reset`. A statement about the machine does not use them:
it is made for every value of `State.params`. -/

namespace Sys2Proof.Machine

/-- MEM_SIZE and ENTRY_PC are OPEN in 00_scope.md R6: DESIGN CHOICE, the largest memory the spec admits
and address 0 (log entries 2 and 3, unsafe). ZERO_REG_HARDWIRED and DIV_CORNER have the defaults of R6
(log entries 1 and 5). -/
def paramsAtReset : Params where
  memSize := 2 ^ 32
  entryPc := 0
  zeroRegHardwired := true
  divCorner := .riscvM

end Sys2Proof.Machine
end

