-- ==== Sys2Proof/Machine/State.lean ====
section
/-! DEFINITION. The state of the machine (10_state.md R10), its value at reset (R26), and the reasons a
step can stop. -/

namespace Sys2Proof.Machine

/-- The bytes of memory that differ from what an unlisted address reads as, by rising address. -/
abbrev Memory := List Host.Cell

/-- What an address that memory does not list reads as: memory is "a fixed-capacity, zero-initialized
byte array" (10_state.md R23). -/
def Memory.unlisted : Byte := 0

/-- The canonical form: addresses strictly rising, no cell equal to what an unlisted address reads as. -/
abbrev Memory.wf (m : Memory) : Prop :=
  List.Pairwise (fun c d => c.1 < d.1) m ∧ ∀ c ∈ m, c.2 ≠ Memory.unlisted

/-- The error kinds (60_exceptions.md R170), identified by name only (log entry 22). -/
inductive ErrorKind
  /-- Raised by the decoder: unsupported opcode; info is the raw word. -/
  | invalidOpcode
  /-- Raised by the executor's dispatch: funct3, funct7 select nothing; info is the raw word. -/
  | invalidInstruction
  /-- Raised by ECALL: x[10] is none of 1, 4, 10, 11; info is x[10]. -/
  | illegalSyscall
  /-- Raised by the loads, the stores and fetch: address + width > MEM_SIZE; info is the address. -/
  | outOfBounds
  /-- Raised by fetch: pc[1:0] is not 0; info is pc (log entry 17). -/
  | misalignedFetch
  /-- Raised by DIV and REM under DIV_CORNER = FATAL only; info is the raw word. -/
  | arithmeticFault
deriving DecidableEq, Repr

/-- The run status (10_state.md R10, R24). -/
inductive Status
  | running
  | halted (code : Word)
  | fatal (kind : ErrorKind) (info : Word)
deriving DecidableEq, Repr

/-- Why `step` answers no next state. No instruction's meaning answers a fault: the spec's errors are
next states whose status is Fatal (60_exceptions.md R178). -/
inductive Fault
  /-- Raised by `step` when the status is Halted: no further instruction executes (10_state.md R24,
  60_exceptions.md R180). Safe: the hardware takes no step either. -/
  | afterHalted (code : Word)
  /-- Raised by `step` when the status is Fatal: "a state … from which there is no step"
  (60_exceptions.md R179). Safe: the hardware takes no step either. -/
  | afterFatal (kind : ErrorKind) (info : Word)
deriving DecidableEq, Repr

/-- Why the model would answer a refusal. -/
inductive Refusal
  /-- Raised by an arm of `exec` for an instruction that has no meaning yet; no arm does. Safe. -/
  | notModelled (mnemonic : String)
deriving DecidableEq, Repr

/-- The state: the five things of 10_state.md R10, and the parameters the machine was built with, which
no step changes (the model's own field, log entry 6). -/
structure State where
  /-- The register file x[0..31] (R11). Reads and writes go through `readReg` and `writeReg`. -/
  x : Vector Word 32
  /-- The program counter (R15): the address of the instruction being executed. -/
  pc : Word
  /-- The byte array mem[0..MEM_SIZE-1] (R23). -/
  mem : Memory
  /-- The console output stream, oldest byte first (R23). -/
  console : List Byte
  /-- The run status (R24). -/
  status : Status
  /-- MEM_SIZE, ENTRY_PC, ZERO_REG_HARDWIRED, DIV_CORNER (00_scope.md R6). -/
  params : Params
deriving DecidableEq, Repr

/-- What every instruction and every step answers. -/
abbrev Result := Host.Outcome State Fault Refusal

/-- The state right after reset for given parameters (10_state.md R26, 70_reset_and_hazards.md R190):
registers zero (DESIGN CHOICE of the spec, D5; log entry 4), pc = ENTRY_PC, memory zero, console empty,
status Running. -/
def State.resetWith (p : Params) : State where
  x := Vector.replicate 32 0
  pc := p.entryPc
  mem := []
  console := []
  status := .running
  params := p

/-- The machine right after reset. -/
def State.reset : State := State.resetWith paramsAtReset

end Sys2Proof.Machine
end

