-- ==== Sys2Proof/Machine/Operands.lean ====
section
/-! DEFINITION. The bit utility `sign_extend` (40_decoder.md R80), the immediate reconstructors (R89;
30_encoding.md R62 to R64) and the other operand forms (R61, R65). -/

namespace Sys2Proof.Machine

/-- The two shifts of R80: left by 32 - n, arithmetic right by 32 - n. -/
def sextShift (field : Word) (n : Nat) : Word := (field <<< (32 - n)).sshiftRight (32 - n)

/-- `sign_extend(field, n)` (40_decoder.md R80): "`n` must be in [1,32]"; outside that range the model
refuses, by `none` (log entry 13). -/
def signExtend (field : Word) (n : Nat) : Option Word :=
  if 1 ≤ n ∧ n ≤ 32 then some (sextShift field n) else none

/-- `sext_12` of an I-format immediate (30_encoding.md R61 (a)). -/
def sext12 (imm : BitVec 12) : Word := sextShift (imm.setWidth 32) 12

/-- The shift amount of SLLI, SRLI, SRAI: `zext_5(imm[4:0])`, not sign-extended (30_encoding.md R61 (b),
42_alu_imm.md R120). -/
def shamt (imm : BitVec 12) : Word := (imm.extractLsb' 0 5).setWidth 32

/-- The store offset `sext_12({H[6:0], L[4:0]})` (30_encoding.md R62). -/
def storeOffset (immLo : BitVec 5) (immHi : BitVec 7) : Word :=
  sextShift ((immHi ++ immLo : BitVec 12).setWidth 32) 12

/-- The branch offset `sext_13({H[6], L[0], H[5:0], L[4:1], 0})` (30_encoding.md R63). -/
def branchOffset (immLo : BitVec 5) (immHi : BitVec 7) : Word :=
  sextShift
    ((immHi.extractLsb' 6 1 ++ immLo.extractLsb' 0 1 ++ immHi.extractLsb' 0 6 ++ immLo.extractLsb' 1 4
      ++ 0#1 : BitVec 13).setWidth 32) 13

/-- The jump offset `sext_21({E[19], E[7:0], E[8], E[18:9], 0})` (30_encoding.md R64). -/
def jumpOffset (e : BitVec 20) : Word :=
  sextShift
    ((e.extractLsb' 19 1 ++ e.extractLsb' 0 8 ++ e.extractLsb' 8 1 ++ e.extractLsb' 9 10 ++ 0#1
      : BitVec 21).setWidth 32) 21

/-- LUI's operand `{imm[19:0], 0^12}` (30_encoding.md R65, 42_alu_imm.md R129). -/
def upperImmediate (imm : BitVec 20) : Word := imm ++ 0#12

end Sys2Proof.Machine
end

