-- ==== Sys2Proof/Machine/Ops.lean ====
section
/-! DEFINITION. The named operations over registers, pc, memory, console and status (00_scope.md section
7), each meaning the spec's primitive of that name. -/

namespace Sys2Proof.Machine

/-! ### Registers and pc -/

/-- Whether register i is the hard-wired zero register (10_state.md R12; log entry 1). -/
def State.hardwired (s : State) (i : RegIdx) : Bool := s.params.zeroRegHardwired && i == 0

/-- `x[i]` (10_state.md R11, R12). -/
def State.readReg (s : State) (i : RegIdx) : Word := if s.hardwired i then 0 else s.x[i.toFin]

/-- `x[i] <- v` (10_state.md R12): discarded for the hard-wired register. -/
def State.writeReg (s : State) (i : RegIdx) (v : Word) : State :=
  if s.hardwired i then s else { s with x := s.x.set i.toFin v }

/-- `pc <- t` (10_state.md R17). -/
def State.setPc (s : State) (t : Word) : State := { s with pc := t }

/-- `pc <- pc + 4` modulo 2^32 (10_state.md R17). -/
def State.advance (s : State) : State := s.setPc (s.pc + 4)

/-! ### Memory -/

/-- One byte of memory. -/
def Memory.readByte : Memory → Nat → Byte
  | [], _ => Memory.unlisted
  | (a', v') :: m, a =>
    if a < a' then Memory.unlisted else if a = a' then v' else Memory.readByte m a

/-- One byte written, keeping the canonical form. -/
def Memory.writeByte : Memory → Nat → Byte → Memory
  | [], a, v => if v = Memory.unlisted then [] else [(a, v)]
  | (a', v') :: m, a, v =>
    if a < a' then
      if v = Memory.unlisted then (a', v') :: m else (a, v) :: (a', v') :: m
    else if a = a' then
      if v = Memory.unlisted then m else (a, v) :: m
    else (a', v') :: Memory.writeByte m a v

/-- `n` bytes at `a`, little-endian, zero-extended (20_memory.md R32, R33). -/
def Memory.readLE (m : Memory) (a : Nat) : Nat → Word
  | 0 => 0
  | n + 1 => (m.readByte a).setWidth 32 ||| (Memory.readLE m (a + 1) n <<< 8)

/-- The low `n` bytes of `v` at `a`, little-endian (20_memory.md R32, R34). -/
def Memory.writeLE (m : Memory) (a : Nat) : Nat → Word → Memory
  | 0, _ => m
  | n + 1, v => Memory.writeLE (m.writeByte a (v.setWidth 8)) (a + 1) n (v >>> 8)

/-- The number of bytes of a width (20_memory.md R35). -/
def widthBytes : Width → Nat
  | .byte => 1
  | .half => 2
  | .word => 4

/-- The bound check of R33 and R34: addr + n <= MEM_SIZE, the sum in Z without wrap (R38). -/
def State.inBounds (s : State) (addr : Word) (w : Width) : Bool :=
  decide (addr.toNat + widthBytes w ≤ s.params.memSize)

/-- The state with another memory. -/
def State.setMem (s : State) (m : Memory) : State := { s with mem := m }

/-- `MemRead(addr, n)` (20_memory.md R33); `none` is OutOfBounds. -/
def State.memRead (s : State) (addr : Word) (w : Width) : Option Word :=
  if s.inBounds addr w then some (s.mem.readLE addr.toNat (widthBytes w)) else none

/-- `MemWrite(addr, n, v)` (20_memory.md R34); `none` is OutOfBounds, with no byte written. -/
def State.memWrite (s : State) (addr : Word) (w : Width) (v : Word) : Option State :=
  if s.inBounds addr w then some (s.setMem (s.mem.writeLE addr.toNat (widthBytes w) v)) else none

/-- The effective address of a load, `x[rs1] + sext_12(imm)` modulo 2^32 (44_load_store.md R150). -/
def State.loadAddress (s : State) (rs1 : RegIdx) (imm : BitVec 12) : Word := s.readReg rs1 + sext12 imm

/-- The effective address of a store, `x[rs1] + store_offset` modulo 2^32 (44_load_store.md R151). -/
def State.storeAddress (s : State) (rs1 : RegIdx) (immLo : BitVec 5) (immHi : BitVec 7) : Word :=
  s.readReg rs1 + storeOffset immLo immHi

/-! ### Console, errors, halting -/

/-- `ConsoleWrite(bytes)` (10_state.md R23). -/
def State.consoleWrite (s : State) (bytes : List Byte) : State := { s with console := s.console ++ bytes }

/-- The state with another status. -/
def State.setStatus (s : State) (st : Status) : State := { s with status := st }

/-- `raise Fatal(kind, info)` (60_exceptions.md R178): the status takes the error; registers, pc, memory
and console stay as they are; nothing is saved and control goes nowhere. There is no return from it
(R179). -/
def raise (kind : ErrorKind) (info : Word) (s : State) : Result :=
  .next (s.setStatus (.fatal kind info))

/-- `halt(code)` (60_exceptions.md R180): only the status changes, pc stays (45_system.md R164). -/
def halt (code : Word) (s : State) : Result := .next (s.setStatus (.halted code))

/-- Write rd and go on to the next instruction: outcome Continue. -/
def writeBack (rd : RegIdx) (v : Word) (s : State) : Result := .next (s.writeReg rd v).advance

/-! ### Fetch -/

/-- What fetching an instruction word answers. It is the spec's own rule (20_memory.md R40 to R42; log
entry 17): a misaligned pc first, then the bound (60_exceptions.md R177). -/
def State.fetch (s : State) : Except ErrorKind Word :=
  if s.pc.extractLsb' 0 2 = 0 then
    match s.memRead s.pc .word with
    | some w => .ok w
    | none => .error .outOfBounds
  else .error .misalignedFetch

end Sys2Proof.Machine
end

