-- ==== Sys2Proof/Machine/Boot.lean ====
section
/-! DEFINITION. What the host does before the first step (70_reset_and_hazards.md R191, 10_state.md R25):
it copies program words and data into memory, sets pc and may set registers. -/

namespace Sys2Proof.Machine

/-- Copy one byte into memory; nothing beyond MEM_SIZE. -/
def State.loadByte (s : State) (a : Nat) (v : Byte) : State :=
  if a < s.params.memSize then s.setMem (s.mem.writeByte a v) else s

/-- Copy bytes to ascending addresses (R191 (2), data). -/
def State.loadBytes (s : State) (a : Nat) : List Byte → State
  | [] => s
  | v :: vs => State.loadBytes (s.loadByte a v) (a + 1) vs

/-- Copy instruction words, little-endian, to ascending addresses (R191 (2), program). -/
def State.loadWords (s : State) (a : Nat) : List Word → State
  | [] => s
  | w :: ws => State.loadWords (s.loadBytes a [byteOf w 0, byteOf w 1, byteOf w 2, byteOf w 3]) (a + 4) ws

/-- The state at the first step: parameters fixed (R191 (1)), program words copied to ENTRY_PC, data bytes
copied to their address, pc at ENTRY_PC (R191 (3)). Registers may then be set by `writeReg` (R191 (4)). -/
def State.boot (p : Params) (program : List Word) (dataAt : Nat) (data : List Byte) : State :=
  ((State.resetWith p).loadWords p.entryPc.toNat program).loadBytes dataAt data

end Sys2Proof.Machine
end

