-- ==== Sys2Proof/Machine/Flags.lean ====
section
/-! DEFINITION. Comparisons. The hardware has no flags: a comparison delivers its result into a general
register (SLT, SLTI) or into the branch decision (BEQ, BNE) (10_state.md R19). -/

namespace Sys2Proof.Machine

/-- The result of SLT and SLTI: 1 if signed(a) < signed(b), else 0 (41_alu_reg.md R100). -/
def setLessThan (a b : Word) : Word := if a.toInt < b.toInt then 1 else 0

/-- The branch condition evaluator `taken(cond, a, b)` (43_branch_jump.md R140). -/
def taken : Cond → Word → Word → Bool
  | .eq, a, b => a == b
  | .ne, a, b => !(a == b)

end Sys2Proof.Machine
end

