-- ==== Sys2Proof/Machine/Alu.lean ====
section
/-! DEFINITION. The ALU (41_alu_reg.md R100) and its division corner cases (R114). -/

namespace Sys2Proof.Machine

/-- The shift amount b[4:0] of SLL, SRL, SRA (R100; log entry 15). -/
def shiftAmount (b : Word) : Nat := (b.extractLsb' 0 5).toNat

/-- The two corner cases the parameter DIV_CORNER speaks of: a zero divisor, and 0x80000000 / -1 (R114). -/
def divCornerCase (a b : Word) : Bool := b == 0 || (a == 0x80000000#32 && b == 0xFFFFFFFF#32)

/-- `div32` under DIV_CORNER = RISCV_M (R114): the quotient truncated toward zero, computed in Z. -/
def div32 (a b : Word) : Word :=
  if b = 0 then 0xFFFFFFFF#32
  else if a = 0x80000000#32 ∧ b = 0xFFFFFFFF#32 then 0x80000000#32
  else BitVec.ofInt 32 (a.toInt.tdiv b.toInt)

/-- `rem32` under DIV_CORNER = RISCV_M (R114): a minus divisor times quotient, computed in Z. -/
def rem32 (a b : Word) : Word :=
  if b = 0 then a
  else if a = 0x80000000#32 ∧ b = 0xFFFFFFFF#32 then 0
  else BitVec.ofInt 32 (a.toInt - b.toInt * a.toInt.tdiv b.toInt)

/-- `ALU(op, a, b)` (R100). -/
def alu : AluOp → Word → Word → Word
  | .add, a, b => a + b
  | .sub, a, b => a - b
  | .mul, a, b => a * b
  | .sll, a, b => a <<< shiftAmount b
  | .slt, a, b => setLessThan a b
  | .xor, a, b => a ^^^ b
  | .div, a, b => div32 a b
  | .srl, a, b => a >>> shiftAmount b
  | .sra, a, b => a.sshiftRight (shiftAmount b)
  | .or, a, b => a ||| b
  | .rem, a, b => rem32 a b
  | .and, a, b => a &&& b

end Sys2Proof.Machine
end

