-- ==== Sys2Proof/Machine/AluImm.lean ====
section
/-! DEFINITION. The eight register-immediate instructions and LUI (42_alu_imm.md R120 to R129). -/

namespace Sys2Proof.Machine

/-- R120 for the operations whose second operand is `sext_12(imm)`. -/
def execImm (op : AluOp) (rd rs1 : RegIdx) (imm : BitVec 12) (s : State) : Result :=
  writeBack rd (alu op (s.readReg rs1) (sext12 imm)) s

/-- R120 for the shifts, whose second operand is `zext_5(imm[4:0])`. -/
def execShiftImm (op : AluOp) (rd rs1 : RegIdx) (imm : BitVec 12) (s : State) : Result :=
  writeBack rd (alu op (s.readReg rs1) (shamt imm)) s

/-- R121. -/
def execAddi (rd rs1 : RegIdx) (imm : BitVec 12) (s : State) : Result := execImm .add rd rs1 imm s
/-- R122. -/
def execSlli (rd rs1 : RegIdx) (imm : BitVec 12) (s : State) : Result := execShiftImm .sll rd rs1 imm s
/-- R123: a signed compare with the sign-extended immediate (90_conflicts.md C2). -/
def execSlti (rd rs1 : RegIdx) (imm : BitVec 12) (s : State) : Result := execImm .slt rd rs1 imm s
/-- R124. -/
def execXori (rd rs1 : RegIdx) (imm : BitVec 12) (s : State) : Result := execImm .xor rd rs1 imm s
/-- R125. -/
def execSrli (rd rs1 : RegIdx) (imm : BitVec 12) (s : State) : Result := execShiftImm .srl rd rs1 imm s
/-- R126. -/
def execSrai (rd rs1 : RegIdx) (imm : BitVec 12) (s : State) : Result := execShiftImm .sra rd rs1 imm s
/-- R127: the operand is the sign-extended immediate, not a register (90_conflicts.md C1). -/
def execOri (rd rs1 : RegIdx) (imm : BitVec 12) (s : State) : Result := execImm .or rd rs1 imm s
/-- R128. -/
def execAndi (rd rs1 : RegIdx) (imm : BitVec 12) (s : State) : Result := execImm .and rd rs1 imm s
/-- R129. -/
def execLui (rd : RegIdx) (imm : BitVec 20) (s : State) : Result := writeBack rd (upperImmediate imm) s

end Sys2Proof.Machine
end

