-- ==== Sys2Proof/Machine/AluReg.lean ====
section
/-! DEFINITION. The twelve register-register instructions (41_alu_reg.md R101 to R116). -/

namespace Sys2Proof.Machine

/-- R101: both operands are read before rd is written (R115). -/
def execReg (op : AluOp) (rd rs1 rs2 : RegIdx) (s : State) : Result :=
  writeBack rd (alu op (s.readReg rs1) (s.readReg rs2)) s

/-- DIV and REM (R114): under DIV_CORNER = FATAL the corner cases raise ArithmeticFault with the
instruction's word, before any write. -/
def execDivision (op : AluOp) (word : Word) (rd rs1 rs2 : RegIdx) (s : State) : Result :=
  if s.params.divCorner = .fatal ∧ divCornerCase (s.readReg rs1) (s.readReg rs2) then
    raise .arithmeticFault word s
  else execReg op rd rs1 rs2 s

/-- R102. -/
def execAdd (rd rs1 rs2 : RegIdx) (s : State) : Result := execReg .add rd rs1 rs2 s
/-- R103. -/
def execSub (rd rs1 rs2 : RegIdx) (s : State) : Result := execReg .sub rd rs1 rs2 s
/-- R104. -/
def execMul (rd rs1 rs2 : RegIdx) (s : State) : Result := execReg .mul rd rs1 rs2 s
/-- R105. -/
def execSll (rd rs1 rs2 : RegIdx) (s : State) : Result := execReg .sll rd rs1 rs2 s
/-- R106. -/
def execSlt (rd rs1 rs2 : RegIdx) (s : State) : Result := execReg .slt rd rs1 rs2 s
/-- R107. -/
def execXor (rd rs1 rs2 : RegIdx) (s : State) : Result := execReg .xor rd rs1 rs2 s
/-- R108. DIV has no ignored bits, so its word is its encoding (log entry 28). -/
def execDiv (rd rs1 rs2 : RegIdx) (s : State) : Result :=
  execDivision .div (encode (.div rd rs1 rs2)) rd rs1 rs2 s
/-- R109. -/
def execSrl (rd rs1 rs2 : RegIdx) (s : State) : Result := execReg .srl rd rs1 rs2 s
/-- R110. -/
def execSra (rd rs1 rs2 : RegIdx) (s : State) : Result := execReg .sra rd rs1 rs2 s
/-- R111. -/
def execOr (rd rs1 rs2 : RegIdx) (s : State) : Result := execReg .or rd rs1 rs2 s
/-- R112. REM has no ignored bits, so its word is its encoding (log entry 28). -/
def execRem (rd rs1 rs2 : RegIdx) (s : State) : Result :=
  execDivision .rem (encode (.rem rd rs1 rs2)) rd rs1 rs2 s
/-- R113. -/
def execAnd (rd rs1 rs2 : RegIdx) (s : State) : Result := execReg .and rd rs1 rs2 s

end Sys2Proof.Machine
end

