-- ==== Sys2Proof/Machine/Control.lean ====
section
/-! DEFINITION. The branches and the jump (43_branch_jump.md R140 to R146). No target is checked here
(R144): a bad pc is caught by the next fetch. -/

namespace Sys2Proof.Machine

/-- R141 and R142: pc + offset if taken, else pc + 4; pc is this instruction's own address. -/
def execBranch (cond : Cond) (rs1 rs2 : RegIdx) (immLo : BitVec 5) (immHi : BitVec 7) (s : State) :
    Result :=
  if taken cond (s.readReg rs1) (s.readReg rs2) then .next (s.setPc (s.pc + branchOffset immLo immHi))
  else .next s.advance

/-- R141. -/
def execBeq (rs1 rs2 : RegIdx) (immLo : BitVec 5) (immHi : BitVec 7) (s : State) : Result :=
  execBranch .eq rs1 rs2 immLo immHi s
/-- R142. -/
def execBne (rs1 rs2 : RegIdx) (immLo : BitVec 5) (immHi : BitVec 7) (s : State) : Result :=
  execBranch .ne rs1 rs2 immLo immHi s
/-- R143: the link value is pc + 4, the target pc + offset, both from this instruction's address. -/
def execJal (rd : RegIdx) (imm : BitVec 20) (s : State) : Result :=
  .next ((s.writeReg rd (s.pc + 4)).setPc (s.pc + jumpOffset imm))

end Sys2Proof.Machine
end

