-- ==== Sys2Proof/Machine/LoadStore.lean ====
section
/-! DEFINITION. The loads and stores (44_load_store.md R150 to R158). The bound is checked before any
byte or register is written (R158). -/

namespace Sys2Proof.Machine

/-- A load of the given width, zero-extended (R152 to R154). -/
def execLoad (w : Width) (rd rs1 : RegIdx) (imm : BitVec 12) (s : State) : Result :=
  match s.memRead (s.loadAddress rs1 imm) w with
  | some v => writeBack rd v s
  | none => raise .outOfBounds (s.loadAddress rs1 imm) s

/-- A store of the given width (R155 to R157). -/
def execStore (w : Width) (rs1 rs2 : RegIdx) (immLo : BitVec 5) (immHi : BitVec 7) (s : State) : Result :=
  match s.memWrite (s.storeAddress rs1 immLo immHi) w (s.readReg rs2) with
  | some t => .next t.advance
  | none => raise .outOfBounds (s.storeAddress rs1 immLo immHi) s

/-- R152: the byte is zero-extended (90_conflicts.md C6; log entry 14). -/
def execLb (rd rs1 : RegIdx) (imm : BitVec 12) (s : State) : Result := execLoad .byte rd rs1 imm s
/-- R153: the halfword is zero-extended (90_conflicts.md C6; log entry 14). -/
def execLh (rd rs1 : RegIdx) (imm : BitVec 12) (s : State) : Result := execLoad .half rd rs1 imm s
/-- R154. -/
def execLw (rd rs1 : RegIdx) (imm : BitVec 12) (s : State) : Result := execLoad .word rd rs1 imm s
/-- R155. -/
def execSb (rs1 rs2 : RegIdx) (immLo : BitVec 5) (immHi : BitVec 7) (s : State) : Result :=
  execStore .byte rs1 rs2 immLo immHi s
/-- R156. -/
def execSh (rs1 rs2 : RegIdx) (immLo : BitVec 5) (immHi : BitVec 7) (s : State) : Result :=
  execStore .half rs1 rs2 immLo immHi s
/-- R157. -/
def execSw (rs1 rs2 : RegIdx) (immLo : BitVec 5) (immHi : BitVec 7) (s : State) : Result :=
  execStore .word rs1 rs2 immLo immHi s

end Sys2Proof.Machine
end

