-- ==== Sys2Proof/Machine/Console.lean ====
section
/-! DEFINITION. The byte formats of the console calls (45_system.md R162, R163). -/

namespace Sys2Proof.Machine

/-- The ASCII byte of a decimal digit, 0x30 to 0x39 (45_system.md R162). -/
def digitByte (d : Nat) : Byte := BitVec.ofNat 8 (0x30 + d)

/-- The base-10 digits of n, most significant first, without leading zeros; `fuel` bounds their number. -/
def decimalDigits : Nat → Nat → List Byte
  | 0, _ => []
  | fuel + 1, n =>
    if n < 10 then [digitByte n] else decimalDigits fuel (n / 10) ++ [digitByte (n % 10)]

/-- `decimal(v)` (45_system.md R162): the shortest base-10 form of signed(v), `-` (0x2D) first when
negative. Ten digits are enough for 2^31 (log entry 20). -/
def decimal (v : Word) : List Byte :=
  if v.toInt < 0 then 0x2D#8 :: decimalDigits 10 v.toInt.natAbs else decimalDigits 10 v.toInt.natAbs

/-- The bytes from address a up to the first zero byte, at most `left` of them. -/
def stringBytes (m : Memory) : Nat → Nat → List Byte
  | 0, _ => []
  | left + 1, a => if m.readByte a = 0 then [] else m.readByte a :: stringBytes m left (a + 1)

/-- `cstring(a)` (45_system.md R163): up to a zero byte or the end of memory; empty when a >= MEM_SIZE
(log entry 21). -/
def State.cstring (s : State) (a : Word) : List Byte :=
  stringBytes s.mem (s.params.memSize - a.toNat) a.toNat

end Sys2Proof.Machine
end

