-- ==== Sys2Proof/Machine/System.lean ====
section
/-! DEFINITION. ECALL and the console protocol (45_system.md R160 to R168). -/

namespace Sys2Proof.Machine

/-- a0, the call number (10_state.md R13). -/
def regA0 : RegIdx := 10#5

/-- a1, the argument: x11, PRESUMED by the spec from the calling convention (10_state.md R13, D30; log
entry 20). -/
def regA1 : RegIdx := 11#5

/-- Write bytes to the console and go on to the next instruction. -/
def print (bytes : List Byte) (s : State) : Result := .next (s.consoleWrite bytes).advance

/-- The call of number n (R161); all 32 bits of n count (log entry 20). -/
def syscall (n : Word) (s : State) : Result :=
  if n = 1 then print (decimal (s.readReg regA1)) s
  else if n = 4 then print (s.cstring (s.readReg regA1)) s
  else if n = 10 then halt 0 s
  else if n = 11 then print [(s.readReg regA1).setWidth 8] s
  else raise .illegalSyscall n s

/-- ECALL (R160): the word's bits 31:7 are ignored (log entry 12). -/
def execEcall (_rd : RegIdx) (_funct3 : BitVec 3) (_rs1 : RegIdx) (_imm : BitVec 12) (s : State) : Result :=
  syscall (s.readReg regA0) s

end Sys2Proof.Machine
end

