-- ==== Sys2Proof/Machine/Step.lean ====
section
/-! DEFINITION. One step of the machine (70_reset_and_hazards.md R192). -/

namespace Sys2Proof.Machine

/-- The step of a running machine: fetch, decode, classify, execute, in the order of checks of
60_exceptions.md R177. -/
def stepRunning (s : State) : Result :=
  match s.fetch with
  | .error kind => raise kind s.pc s
  | .ok word =>
    match readInstr word with
    | .invalidOpcode raw => raise .invalidOpcode raw s
    | .invalidInstruction raw => raise .invalidInstruction raw s
    | .instr i => exec i s

/-- One step, "defined only when `status = Running`" (R192); after Halted or Fatal there is none
(10_state.md R24; log entry 19). -/
def step (s : State) : Host.Outcome State Fault Refusal :=
  match s.status with
  | .running => stepRunning s
  | .halted code => .fault (.afterHalted code)
  | .fatal kind info => .fault (.afterFatal kind info)

/-- `s` with an opcode-table word stored at pc, where `step` fetches (log entry 24). -/
def State.withFetchWord (s : State) (nbits w : Nat) : State := s.loadWords s.pc.toNat [tableWord nbits w]

end Sys2Proof.Machine
end

