-- ==== Sys2Proof/Machine/Assembler.lean ====
section
/-! DEFINITION. The assembler's side of the encoding: offsets split into fields (the inverse of
30_encoding.md R62 to R64), the written form of an instruction (R70) and the pseudo-instructions (R71).
The machine does not use this file. -/

namespace Sys2Proof.Machine

/-- The fields (imm_lo, imm_hi) of a store offset (R62). -/
def storeFields (off : Word) : BitVec 5 × BitVec 7 := (off.extractLsb' 0 5, off.extractLsb' 5 7)

/-- The fields (imm_lo, imm_hi) of a branch offset (R63). -/
def branchFields (off : Word) : BitVec 5 × BitVec 7 :=
  (off.extractLsb' 1 4 ++ off.extractLsb' 11 1, off.extractLsb' 12 1 ++ off.extractLsb' 5 6)

/-- The encoded immediate E of a jump offset (R64). -/
def jumpField (off : Word) : BitVec 20 :=
  off.extractLsb' 20 1 ++ off.extractLsb' 1 10 ++ off.extractLsb' 11 1 ++ off.extractLsb' 12 8

/-! ### Pseudo-instructions (R71) -/

def pseudoNop : Instr := .addi 0 0 0
def pseudoMv (rd rs : RegIdx) : Instr := .addi rd rs 0
/-- `li rd, imm` with imm in -2048..2047. -/
def pseudoLiSmall (rd : RegIdx) (imm : BitVec 12) : Instr := .addi rd 0 imm
/-- `li rd, imm32`: `lo12 = sext_12(imm32[11:0])`, `hi20 = (imm32 - lo12)[31:12]`. -/
def pseudoLi (rd : RegIdx) (v : Word) : List Instr :=
  [.lui rd ((v - sext12 (v.extractLsb' 0 12)).extractLsb' 12 20), .addi rd rd (v.extractLsb' 0 12)]
def pseudoNot (rd rs : RegIdx) : Instr := .xori rd rs 0xFFF#12
def pseudoNeg (rd rs : RegIdx) : Instr := .sub rd 0 rs
def pseudoJ (off : Word) : Instr := .jal 0 (jumpField off)
def pseudoBeqz (rs : RegIdx) (off : Word) : Instr := .beq rs 0 (branchFields off).1 (branchFields off).2
def pseudoBnez (rs : RegIdx) (off : Word) : Instr := .bne rs 0 (branchFields off).1 (branchFields off).2

/-! ### The written form (R70) -/

def asmReg (r : RegIdx) : String := "x" ++ Nat.repr r.toNat

def asmInt (v : Word) : String :=
  if v.toInt < 0 then "-" ++ Nat.repr v.toInt.natAbs else Nat.repr v.toInt.natAbs

def asmR (name : String) (rd rs1 rs2 : RegIdx) : String :=
  name ++ " " ++ asmReg rd ++ ", " ++ asmReg rs1 ++ ", " ++ asmReg rs2

def asmI (name : String) (rd rs1 : RegIdx) (imm : BitVec 12) : String :=
  name ++ " " ++ asmReg rd ++ ", " ++ asmReg rs1 ++ ", " ++ asmInt (sext12 imm)

def asmShift (name : String) (rd rs1 : RegIdx) (imm : BitVec 12) : String :=
  name ++ " " ++ asmReg rd ++ ", " ++ asmReg rs1 ++ ", " ++ asmInt (shamt imm)

def asmLoad (name : String) (rd rs1 : RegIdx) (imm : BitVec 12) : String :=
  name ++ " " ++ asmReg rd ++ ", " ++ asmInt (sext12 imm) ++ "(" ++ asmReg rs1 ++ ")"

def asmStore (name : String) (rs1 rs2 : RegIdx) (immLo : BitVec 5) (immHi : BitVec 7) : String :=
  name ++ " " ++ asmReg rs2 ++ ", " ++ asmInt (storeOffset immLo immHi) ++ "(" ++ asmReg rs1 ++ ")"

def asmBranch (name : String) (rs1 rs2 : RegIdx) (immLo : BitVec 5) (immHi : BitVec 7) : String :=
  name ++ " " ++ asmReg rs1 ++ ", " ++ asmReg rs2 ++ ", " ++ asmInt (branchOffset immLo immHi)

/-- An instruction as R70 writes it. -/
def asmOf : Instr → String
  | .add rd rs1 rs2 => asmR "add" rd rs1 rs2
  | .sub rd rs1 rs2 => asmR "sub" rd rs1 rs2
  | .mul rd rs1 rs2 => asmR "mul" rd rs1 rs2
  | .sll rd rs1 rs2 => asmR "sll" rd rs1 rs2
  | .slt rd rs1 rs2 => asmR "slt" rd rs1 rs2
  | .xor rd rs1 rs2 => asmR "xor" rd rs1 rs2
  | .div rd rs1 rs2 => asmR "div" rd rs1 rs2
  | .srl rd rs1 rs2 => asmR "srl" rd rs1 rs2
  | .sra rd rs1 rs2 => asmR "sra" rd rs1 rs2
  | .or rd rs1 rs2 => asmR "or" rd rs1 rs2
  | .rem rd rs1 rs2 => asmR "rem" rd rs1 rs2
  | .and rd rs1 rs2 => asmR "and" rd rs1 rs2
  | .addi rd rs1 imm => asmI "addi" rd rs1 imm
  | .slli rd rs1 imm => asmShift "slli" rd rs1 imm
  | .slti rd rs1 imm => asmI "slti" rd rs1 imm
  | .xori rd rs1 imm => asmI "xori" rd rs1 imm
  | .srli rd rs1 imm => asmShift "srli" rd rs1 imm
  | .srai rd rs1 imm => asmShift "srai" rd rs1 imm
  | .ori rd rs1 imm => asmI "ori" rd rs1 imm
  | .andi rd rs1 imm => asmI "andi" rd rs1 imm
  | .lui rd imm => "lui " ++ asmReg rd ++ ", " ++ Nat.repr imm.toNat
  | .beq rs1 rs2 immLo immHi => asmBranch "beq" rs1 rs2 immLo immHi
  | .bne rs1 rs2 immLo immHi => asmBranch "bne" rs1 rs2 immLo immHi
  | .jal rd imm => "jal " ++ asmReg rd ++ ", " ++ asmInt (jumpOffset imm)
  | .lb rd rs1 imm => asmLoad "lb" rd rs1 imm
  | .lh rd rs1 imm => asmLoad "lh" rd rs1 imm
  | .lw rd rs1 imm => asmLoad "lw" rd rs1 imm
  | .sb rs1 rs2 immLo immHi => asmStore "sb" rs1 rs2 immLo immHi
  | .sh rs1 rs2 immLo immHi => asmStore "sh" rs1 rs2 immLo immHi
  | .sw rs1 rs2 immLo immHi => asmStore "sw" rs1 rs2 immLo immHi
  | .ecall _ _ _ _ => "ecall"

end Sys2Proof.Machine
end

