-- ==== Sys2Proof/Safety.lean ====
section
/-! DEFINITION. The terms the statements use: what an instruction may write, what a data access is, the
invariant of the machine, and how a run ends. -/

namespace Sys2Proof.Machine

/-- The register an instruction writes, by the table of 10_state.md R14. -/
def destOf : Instr → Option RegIdx
  | .add rd _ _ | .sub rd _ _ | .mul rd _ _ | .sll rd _ _ | .slt rd _ _ | .xor rd _ _ | .div rd _ _
  | .srl rd _ _ | .sra rd _ _ | .or rd _ _ | .rem rd _ _ | .and rd _ _ => some rd
  | .addi rd _ _ | .slli rd _ _ | .slti rd _ _ | .xori rd _ _ | .srli rd _ _ | .srai rd _ _
  | .ori rd _ _ | .andi rd _ _ => some rd
  | .lb rd _ _ | .lh rd _ _ | .lw rd _ _ => some rd
  | .jal rd _ => some rd
  | .lui rd _ => some rd
  | .sb _ _ _ _ | .sh _ _ _ _ | .sw _ _ _ _ => none
  | .beq _ _ _ _ | .bne _ _ _ _ => none
  | .ecall _ _ _ _ => none

/-- The store an instruction makes in a state: address, width and value (44_load_store.md R155 to R157). -/
def storeOf (s : State) : Instr → Option (Word × Width × Word)
  | .sb rs1 rs2 immLo immHi => some (s.storeAddress rs1 immLo immHi, .byte, s.readReg rs2)
  | .sh rs1 rs2 immLo immHi => some (s.storeAddress rs1 immLo immHi, .half, s.readReg rs2)
  | .sw rs1 rs2 immLo immHi => some (s.storeAddress rs1 immLo immHi, .word, s.readReg rs2)
  | _ => none

/-- The data access an instruction checks against MEM_SIZE: address and width (R152 to R157). -/
def accessOf (s : State) : Instr → Option (Word × Width)
  | .lb _ rs1 imm => some (s.loadAddress rs1 imm, .byte)
  | .lh _ rs1 imm => some (s.loadAddress rs1 imm, .half)
  | .lw _ rs1 imm => some (s.loadAddress rs1 imm, .word)
  | .sb rs1 _ immLo immHi => some (s.storeAddress rs1 immLo immHi, .byte)
  | .sh rs1 _ immLo immHi => some (s.storeAddress rs1 immLo immHi, .half)
  | .sw rs1 _ immLo immHi => some (s.storeAddress rs1 immLo immHi, .word)
  | _ => none

/-- The operands of a division (41_alu_reg.md R114). -/
def divisionOf (s : State) : Instr → Option (Word × Word)
  | .div _ rs1 rs2 | .rem _ rs1 rs2 => some (s.readReg rs1, s.readReg rs2)
  | _ => none

/-- Whether an instruction is ECALL. -/
def isEcall : Instr → Bool
  | .ecall _ _ _ _ => true
  | _ => false

/-- The offset a branch or jump adds to its own address (43_branch_jump.md R141 to R143). -/
def offsetOf : Instr → Option Word
  | .beq _ _ immLo immHi | .bne _ _ immLo immHi => some (branchOffset immLo immHi)
  | .jal _ imm => some (jumpOffset imm)
  | _ => none

/-- Which statuses can occur: the only exit code is 0 (60_exceptions.md R180), and ArithmeticFault occurs
under DIV_CORNER = FATAL only (R170). -/
def statusPossible (p : Params) : Status → Bool
  | .running => true
  | .halted code => code == 0
  | .fatal .arithmeticFault _ => decide (p.divCorner = .fatal)
  | .fatal _ _ => true

/-- The invariant of the machine. -/
structure State.Inv (s : State) : Prop where
  /-- The parameters are within their bounds (00_scope.md R6). -/
  params : s.params.wf
  /-- Memory is canonical. -/
  canonical : s.mem.wf
  /-- "Addresses MEM_SIZE and above hold nothing" (20_memory.md R30). -/
  bounded : ∀ c ∈ s.mem, c.1 < s.params.memSize
  /-- The hard-wired register holds zero (10_state.md R12). -/
  zero : s.params.zeroRegHardwired = true → s.x[0] = 0
  /-- "offsets are always even, so `pc` is never odd when ENTRY_PC is even" (10_state.md R18). -/
  pcEven : s.pc.getLsbD 0 = false
  /-- The status is one that can occur. -/
  status : statusPossible s.params s.status = true

/-- `n` steps from `s`, stopping where no step exists. -/
def run (n : Nat) (s : State) : Result := Sys2Proof.core.run n s

/-- "It ends well iff the outcome is `Halted(0)`" (70_reset_and_hazards.md R193). -/
def endsWell (s : State) : Prop := s.status = .halted 0

/-- It ends badly with an error (R193). -/
def endsBadly (s : State) : Prop := ∃ kind info, s.status = .fatal kind info

end Sys2Proof.Machine
end

