-- ==== Sys2Proof/Certificates/Slice0/Obligations.lean ====
section
/-! DEFINITION. The statements for the provers. "Log entry n" is notes/assumptions/n.md. -/

/-! ### The terms of the statements -/

namespace Sys2Proof.Claims
open Sys2Proof.Machine

/-- Every byte of memory reads as before. -/
def sameMemory (s t : State) : Prop := ∀ a, t.mem.readByte a = s.mem.readByte a

/-- Every register reads as before. -/
def sameRegs (s t : State) : Prop := ∀ r, t.readReg r = s.readReg r

/-- The machine goes on: console, status and parameters as before. -/
def goesOn (s t : State) : Prop := t.console = s.console ∧ t.status = s.status ∧ t.params = s.params

/-- Register rd is not the hard-wired zero register, so a write to it takes effect (10_state.md R12). -/
def writable (s : State) (rd : RegIdx) : Prop := s.params.zeroRegHardwired = false ∨ rd ≠ 0

/-- Executing `i` answers a next state in which rd holds `v`, pc is `pc'`, and every other register, every
byte of memory, the console, the status and the parameters are as before. -/
def setsOnly (i : Instr) (s : State) (rd : RegIdx) (v pc' : Word) : Prop :=
  ∃ t, exec i s = .next t ∧ t.readReg rd = v ∧ (∀ r, r ≠ rd → t.readReg r = s.readReg r) ∧ t.pc = pc' ∧
    sameMemory s t ∧ goesOn s t

/-- Executing `i` answers a next state in which pc is `pc'` and all else is as before. -/
def movesOnly (i : Instr) (s : State) (pc' : Word) : Prop :=
  ∃ t, exec i s = .next t ∧ t.pc = pc' ∧ sameRegs s t ∧ sameMemory s t ∧ goesOn s t

/-- Executing `i` answers a next state in which the n bytes at `a` are the low n bytes of `v`,
little-endian, pc is 4 further, and every other byte and all else is as before. -/
def storesOnly (i : Instr) (s : State) (a : Word) (n : Nat) (v : Word) : Prop :=
  ∃ t, exec i s = .next t ∧ t.pc = s.pc + 4 ∧ sameRegs s t ∧ goesOn s t ∧
    (∀ k < n, (t.mem.readByte (a.toNat + k)).toNat = v.toNat / 256 ^ k % 256) ∧
    ∀ b, b < a.toNat ∨ a.toNat + n ≤ b → t.mem.readByte b = s.mem.readByte b

/-- Executing `i` answers a next state in which `bytes` are appended to the console, pc is 4 further, and
all else is as before. -/
def printsOnly (i : Instr) (s : State) (bytes : List Byte) : Prop :=
  ∃ t, exec i s = .next t ∧ t.console = s.console ++ bytes ∧ t.pc = s.pc + 4 ∧ sameRegs s t ∧
    sameMemory s t ∧ t.status = s.status ∧ t.params = s.params

/-- Executing `i` raises Fatal(kind, info): the status says so and nothing else changes. -/
def raises (i : Instr) (s : State) (kind : ErrorKind) (info : Word) : Prop :=
  exec i s = .next { s with status := .fatal kind info }

/-- The number a sequence of ASCII digits stands for. -/
def digitsValue (digits : List Byte) : Nat := digits.foldl (fun n d => 10 * n + (d.toNat - 0x30)) 0

/-- The four bytes at `a` are those of `w`, the least significant at the lowest address. -/
def holdsWord (m : Memory) (a : Nat) (w : Word) : Prop :=
  ∀ k < 4, (m.readByte (a + k)).toNat = w.toNat / 256 ^ k % 256

/-- One row of the opcode map: an instruction's mask and match (30_encoding.md R59). -/
structure Row where
  mnemonic : String
  mask : Word
  pattern : Word

/-- The opcode map of 30_encoding.md R59, row by row. -/
def opcodeMap : List Row :=
  [⟨"ADD", 0xFE00707F, 0x00000033⟩, ⟨"SUB", 0xFE00707F, 0x40000033⟩, ⟨"MUL", 0xFE00707F, 0x02000033⟩,
   ⟨"SLL", 0xFE00707F, 0x00001033⟩, ⟨"SLT", 0xFE00707F, 0x00002033⟩, ⟨"XOR", 0xFE00707F, 0x00004033⟩,
   ⟨"DIV", 0xFE00707F, 0x02004033⟩, ⟨"SRL", 0xFE00707F, 0x00005033⟩, ⟨"SRA", 0xFE00707F, 0x40005033⟩,
   ⟨"OR", 0xFE00707F, 0x00006033⟩, ⟨"REM", 0xFE00707F, 0x02006033⟩, ⟨"AND", 0xFE00707F, 0x00007033⟩] ++
  [⟨"ADDI", 0x0000707F, 0x00000013⟩, ⟨"SLLI", 0x0000707F, 0x00001013⟩, ⟨"SLTI", 0x0000707F, 0x00002013⟩,
   ⟨"XORI", 0x0000707F, 0x00004013⟩, ⟨"SRLI", 0x4000707F, 0x00005013⟩, ⟨"SRAI", 0x4000707F, 0x40005013⟩,
   ⟨"ORI", 0x0000707F, 0x00006013⟩, ⟨"ANDI", 0x0000707F, 0x00007013⟩] ++
  [⟨"LB", 0x0000707F, 0x00000003⟩, ⟨"LH", 0x0000707F, 0x00001003⟩, ⟨"LW", 0x0000707F, 0x00002003⟩,
   ⟨"SB", 0x0000707F, 0x00000023⟩, ⟨"SH", 0x0000707F, 0x00001023⟩, ⟨"SW", 0x0000707F, 0x00002023⟩,
   ⟨"BEQ", 0x0000707F, 0x00000063⟩, ⟨"BNE", 0x0000707F, 0x00001063⟩, ⟨"JAL", 0x0000007F, 0x0000006F⟩,
   ⟨"LUI", 0x0000007F, 0x00000037⟩, ⟨"ECALL", 0x0000007F, 0x00000073⟩]

/-- An instruction's name in the opcode map. -/
def mnemonicOf : Instr → String
  | .add _ _ _ => "ADD" | .sub _ _ _ => "SUB" | .mul _ _ _ => "MUL" | .sll _ _ _ => "SLL"
  | .slt _ _ _ => "SLT" | .xor _ _ _ => "XOR" | .div _ _ _ => "DIV" | .srl _ _ _ => "SRL"
  | .sra _ _ _ => "SRA" | .or _ _ _ => "OR" | .rem _ _ _ => "REM" | .and _ _ _ => "AND"
  | .addi _ _ _ => "ADDI" | .slli _ _ _ => "SLLI" | .slti _ _ _ => "SLTI" | .xori _ _ _ => "XORI"
  | .srli _ _ _ => "SRLI" | .srai _ _ _ => "SRAI" | .ori _ _ _ => "ORI" | .andi _ _ _ => "ANDI"
  | .lui _ _ => "LUI" | .beq _ _ _ _ => "BEQ" | .bne _ _ _ _ => "BNE" | .jal _ _ => "JAL"
  | .lb _ _ _ => "LB" | .lh _ _ _ => "LH" | .lw _ _ _ => "LW" | .sb _ _ _ _ => "SB"
  | .sh _ _ _ _ => "SH" | .sw _ _ _ _ => "SW" | .ecall _ _ _ _ => "ECALL"

/-- The eight supported opcodes (30_encoding.md R58). -/
def supportedOpcode (op : BitVec 7) : Prop :=
  op = 0x33#7 ∨ op = 0x13#7 ∨ op = 0x03#7 ∨ op = 0x73#7 ∨ op = 0x23#7 ∨ op = 0x63#7 ∨ op = 0x6F#7 ∨ op = 0x37#7

/-- The format each opcode selects (30_encoding.md R58). -/
def formatSelectedBy (op : BitVec 7) : Fields → Prop
  | .R _ _ _ _ _ => op = 0x33#7
  | .I _ _ _ _ => op = 0x13#7 ∨ op = 0x03#7 ∨ op = 0x73#7
  | .S _ _ _ _ _ => op = 0x23#7
  | .B _ _ _ _ _ => op = 0x63#7
  | .U _ _ => op = 0x37#7
  | .J _ _ => op = 0x6F#7

end Sys2Proof.Claims

section Statements
open Sys2Proof Sys2Proof.Machine Sys2Proof.Claims

/-! ### Encoding and decoding -/

/-- A few words of 40_decoder.md section 8 and 95_test_vectors.md section 2.2 read as the instructions
they stand for, and a few as the errors. -/
def Obligations.SpecWordsReadAsStated : Prop :=
  readInstr 0x40C5D533 = .instr (.sra 10 11 12) ∧ readInstr 0xFFF08193 = .instr (.addi 3 1 0xFFF) ∧
  readInstr 0xFFC32703 = .instr (.lw 14 6 0xFFC) ∧ readInstr 0xFE531F23 = .instr (.sh 6 5 30 0x7F) ∧
  readInstr 0xFE029CE3 = .instr (.bne 5 0 25 0x7F) ∧ readInstr 0xFF1FF06F = .instr (.jal 0 0xFF1FF) ∧
  readInstr 0xDEADC2B7 = .instr (.lui 5 0xDEADC) ∧ readInstr 0xFFFFFFF3 = .instr (.ecall 31 7 31 0xFFF) ∧
  readInstr 0x0000005B = .invalidOpcode 0x0000005B ∧
  readInstr 0xFFFFFFB3 = .invalidInstruction 0xFFFFFFB3

/-- 40_decoder.md R80, for n in 1..32: bits below n are the field's, bits from n on its bit n-1, and the
integer is `field[n-1:0] - 2^n * field[n-1]`; outside 1..32 the model refuses (D25, log entry 13). -/
def Obligations.SignExtendGivesTheTwosComplementValue : Prop :=
  ∀ (field : Word) (n : Nat),
    (1 ≤ n ∧ n ≤ 32 → ∃ v, signExtend field n = some v ∧
      (∀ i < n, v.getLsbD i = field.getLsbD i) ∧
      (∀ i, n ≤ i → i < 32 → v.getLsbD i = field.getLsbD (n - 1)) ∧
      v.toInt = (field.toNat % 2 ^ n : Nat) - (if field.getLsbD (n - 1) then (2 ^ n : Int) else 0)) ∧
    (n = 0 ∨ 32 < n → signExtend field n = none)

/-- 30_encoding.md R62, on the two fields of a word: offset[11:5] = word[31:25], offset[4:0] = word[11:7],
the rest sign bits; the value is in -2048..2047. -/
def Obligations.StoreOffsetTakesTheStatedWordBits : Prop :=
  ∀ w : Word, let off := storeOffset (w.extractLsb' 7 5) (w.extractLsb' 25 7)
    (∀ i < 5, off.getLsbD i = w.getLsbD (i + 7)) ∧ (∀ i, 5 ≤ i → i ≤ 11 → off.getLsbD i = w.getLsbD (i + 20)) ∧
    (∀ i, 12 ≤ i → i < 32 → off.getLsbD i = w.getLsbD 31) ∧ -2048 ≤ off.toInt ∧ off.toInt ≤ 2047

/-- 30_encoding.md R63: offset[12] = word[31], offset[11] = word[7], offset[10:5] = word[30:25],
offset[4:1] = word[11:8], offset[0] = 0, the rest sign bits; the value is in -4096..4094. -/
def Obligations.BranchOffsetTakesTheStatedWordBits : Prop :=
  ∀ w : Word, let off := branchOffset (w.extractLsb' 7 5) (w.extractLsb' 25 7)
    off.getLsbD 0 = false ∧ (∀ i, 1 ≤ i → i ≤ 4 → off.getLsbD i = w.getLsbD (i + 7)) ∧
    (∀ i, 5 ≤ i → i ≤ 10 → off.getLsbD i = w.getLsbD (i + 20)) ∧ off.getLsbD 11 = w.getLsbD 7 ∧
    (∀ i, 12 ≤ i → i < 32 → off.getLsbD i = w.getLsbD 31) ∧ -4096 ≤ off.toInt ∧ off.toInt ≤ 4094

/-- 30_encoding.md R64: offset[20] = word[31], offset[19:12] = word[19:12], offset[11] = word[20],
offset[10:1] = word[30:21], offset[0] = 0, the rest sign bits; the value is in -1048576..1048574. That the
encoded immediate is word[31:12] is the spec's decision D9 (log entry 9). -/
def Obligations.JumpOffsetTakesTheStatedWordBits : Prop :=
  ∀ w : Word, let off := jumpOffset (w.extractLsb' 12 20)
    off.getLsbD 0 = false ∧ (∀ i, 1 ≤ i → i ≤ 10 → off.getLsbD i = w.getLsbD (i + 20)) ∧
    off.getLsbD 11 = w.getLsbD 20 ∧ (∀ i, 12 ≤ i → i ≤ 19 → off.getLsbD i = w.getLsbD i) ∧
    (∀ i, 20 ≤ i → i < 32 → off.getLsbD i = w.getLsbD 31) ∧ -1048576 ≤ off.toInt ∧ off.toInt ≤ 1048574

/-- The offset fields can express every offset the formats admit: each even offset in -4096..4094 has
branch fields, each even offset in -1048576..1048574 a jump field, each offset in -2048..2047 store
fields (from 30_encoding.md R62 to R64; used by the pseudo-instructions of R71). -/
def Obligations.EveryAdmittedOffsetHasFields : Prop :=
  ∀ off : Word,
    (-2048 ≤ off.toInt ∧ off.toInt ≤ 2047 → storeOffset (storeFields off).1 (storeFields off).2 = off) ∧
    (off.toInt % 2 = 0 ∧ -4096 ≤ off.toInt ∧ off.toInt ≤ 4094 →
      branchOffset (branchFields off).1 (branchFields off).2 = off) ∧
    (off.toInt % 2 = 0 ∧ -1048576 ≤ off.toInt ∧ off.toInt ≤ 1048574 → jumpOffset (jumpField off) = off)

/-- 30_encoding.md R58: exactly the eight opcodes are supported, and each selects its format, whatever the
word's other bits; for every other value the decoder answers InvalidOpcode with the raw word. -/
def Obligations.DecoderAcceptsExactlyTheSupportedOpcodes : Prop :=
  ∀ w : Word,
    (supportedOpcode (w.extractLsb' 0 7) → ∃ r, decode w = .record r ∧ r.raw = w ∧
      r.opcode = w.extractLsb' 0 7 ∧ formatSelectedBy (w.extractLsb' 0 7) r.fields) ∧
    (¬supportedOpcode (w.extractLsb' 0 7) → decode w = .invalidOpcode w)

/-- 40_decoder.md R91: re-packing the fields of the record gives the word again, for every format (the spec's
own inference from R83 and R84). -/
def Obligations.RecordRepacksToItsWord : Prop :=
  ∀ (w : Word) (r : Record), decode w = .record r → repack r = w

/-- Reading the encoding of a well-formed instruction gives that instruction, for every instruction and
every value of every operand and every ignored bit. -/
def Obligations.ReadingAnEncodedInstructionGivesItBack : Prop :=
  ∀ i : Instr, i.wellFormed = true → readInstr (encode i) = .instr i

/-- A word that reads as an instruction is that instruction's encoding, and the instruction is well formed:
no two words are one instruction and no bit of a word is dropped. -/
def Obligations.AReadWordIsTheEncodingOfItsInstruction : Prop :=
  ∀ (w : Word) (i : Instr), readInstr w = .instr i → encode i = w ∧ i.wellFormed = true

/-- 30_encoding.md R59: a word w is an instruction iff `(w & mask) = match` for a row of the opcode map, it
is the instruction of that row, and no word matches two rows. The funct3 and funct7 numbers are the spec's
decision D8, from general knowledge, their full comparison D10 (log entries 8 and 10). -/
def Obligations.ReadingFollowsTheOpcodeMap : Prop :=
  ∀ w : Word,
    (∀ i, readInstr w = .instr i →
      ∃ row ∈ opcodeMap, row.mnemonic = mnemonicOf i ∧ w &&& row.mask = row.pattern) ∧
    (∀ row ∈ opcodeMap, w &&& row.mask = row.pattern →
      ∃ i, readInstr w = .instr i ∧ mnemonicOf i = row.mnemonic)

/-- 30_encoding.md R66, R67: a word that is no instruction is InvalidOpcode when its opcode is unsupported,
and InvalidInstruction when its opcode is supported; each carries the raw word (which words these are rests
on D8 and D10, log entries 8 and 10). -/
def Obligations.WordsThatAreNoInstructionAreRejectedByKind : Prop :=
  ∀ w : Word, (∀ row ∈ opcodeMap, w &&& row.mask ≠ row.pattern) →
    (¬supportedOpcode (w.extractLsb' 0 7) → readInstr w = .invalidOpcode w) ∧
    (supportedOpcode (w.extractLsb' 0 7) → readInstr w = .invalidInstruction w)

/-- An opcode-table word given whole reads as the instruction it encodes. -/
def Obligations.TableWordsDecodeToTheirInstruction : Prop :=
  ∀ i : Instr, i.wellFormed = true → decodeTableWord 32 (encode i).toNat = some i

/-! ### Reset and boot -/

/-- The reset state for any parameters (10_state.md R26; the zeros of x1..x31 and pc = ENTRY_PC are the
spec's decision D5, log entries 3 and 4), and the parameters of `State.reset` (log entries 1, 2, 3, 5). -/
def Obligations.ResetStateHasTheStatedValues : Prop :=
  (∀ p : Params, let s := State.resetWith p
    (∀ r, s.readReg r = 0) ∧ s.pc = p.entryPc ∧ (∀ a, s.mem.readByte a = 0) ∧ s.console = [] ∧
      s.status = .running ∧ s.params = p) ∧
  State.reset = State.resetWith ⟨2 ^ 32, 0, true, .riscvM⟩

/-- Booting places every word of the program, little-endian, from ENTRY_PC on, and leaves the rest as at
reset (70_reset_and_hazards.md R191). -/
def Obligations.BootPlacesTheProgram : Prop :=
  ∀ (p : Params) (program : List Word), p.entryPc.toNat + 4 * program.length ≤ p.memSize →
    let s := State.boot p program 0 []
    (∀ k (hk : k < program.length), holdsWord s.mem (p.entryPc.toNat + 4 * k) program[k]) ∧
    (∀ a, a < p.entryPc.toNat ∨ p.entryPc.toNat + 4 * program.length ≤ a → s.mem.readByte a = 0) ∧
    (∀ r, s.readReg r = 0) ∧ s.pc = p.entryPc ∧ s.console = [] ∧ s.status = .running ∧ s.params = p

/-! ### The step -/

/-- 70_reset_and_hazards.md R192: when the machine is Running and the four bytes at an aligned pc inside
memory are those of a word that reads as instruction i, the step is the execution of i in that state. The
fetch is the spec's own (R40 to R42, log entry 17). -/
def Obligations.StepRunsTheDecodedInstruction : Prop :=
  ∀ (s : State) (w : Word) (i : Instr), s.status = .running → s.pc.toNat % 4 = 0 →
    s.pc.toNat + 4 ≤ s.params.memSize → holdsWord s.mem s.pc.toNat w → readInstr w = .instr i →
    step s = exec i s

/-- A Running machine with canonical memory and a fetchable pc runs, after `withFetchWord`, exactly the
instruction of the word (the model's stand-in for a program load, log entry 24). -/
def Obligations.AFetchWordIsTheNextInstructionRun : Prop :=
  ∀ (s : State) (i : Instr), s.mem.wf → s.status = .running → s.pc.toNat % 4 = 0 →
    s.pc.toNat + 4 ≤ s.params.memSize → i.wellFormed = true →
    step (s.withFetchWord 32 (encode i).toNat) = exec i (s.withFetchWord 32 (encode i).toNat) ∧
      sameRegs s (s.withFetchWord 32 (encode i).toNat)

/-- 60_exceptions.md R177, lines 1 to 4, for a Running machine (the order is the spec's decision D31, the
first line D7; log entries 17 and 22): each error is raised with the stated info and changes the status
only. -/
def Obligations.FetchAndDecodeErrorsComeInTheStatedOrder : Prop :=
  ∀ (s : State) (w : Word), s.status = .running →
    (s.pc.toNat % 4 ≠ 0 → step s = .next { s with status := .fatal .misalignedFetch s.pc }) ∧
    (s.pc.toNat % 4 = 0 → s.params.memSize < s.pc.toNat + 4 →
      step s = .next { s with status := .fatal .outOfBounds s.pc }) ∧
    (s.pc.toNat % 4 = 0 → s.pc.toNat + 4 ≤ s.params.memSize → holdsWord s.mem s.pc.toNat w →
      readInstr w = .invalidOpcode w → step s = .next { s with status := .fatal .invalidOpcode w }) ∧
    (s.pc.toNat % 4 = 0 → s.pc.toNat + 4 ≤ s.params.memSize → holdsWord s.mem s.pc.toNat w →
      readInstr w = .invalidInstruction w →
      step s = .next { s with status := .fatal .invalidInstruction w })

/-- 60_exceptions.md R171: a fetched word with an unsupported opcode ends the step with
Fatal(InvalidOpcode, word) and mutates no state. -/
def Obligations.UnknownOpcodeIsFatalAndMutatesNothing : Prop :=
  ∀ (s : State) (w : Word), s.status = .running → s.pc.toNat % 4 = 0 →
    s.pc.toNat + 4 ≤ s.params.memSize → holdsWord s.mem s.pc.toNat w →
    ¬supportedOpcode (w.extractLsb' 0 7) →
    step s = .next { s with status := .fatal .invalidOpcode w }

/-- 10_state.md R24: after Halted or Fatal no further instruction is fetched or executed, so however many
steps are asked for, the status is never anything else again. -/
def Obligations.NoInstructionExecutesAfterTheEnd : Prop :=
  ∀ (s : State), s.status ≠ .running → (∀ t, step s ≠ .next t) ∧ ∀ n t, run n s = .next t → t = s

/-- Executing an instruction always answers a next state: no instruction stops the model on any operands
in any state. -/
def Obligations.EveryInstructionAnswersANextState : Prop := ∀ (i : Instr) (s : State), ∃ t, exec i s = .next t

/-- 60_exceptions.md R178 and R180: a step of a Running machine that ends in Fatal or Halted changes the
status and nothing else, pc included (for the kinds other than InvalidOpcode this is the spec's decision
D21, for pc after a halt D22; log entry 18), and the exit code is 0. -/
def Obligations.EndingChangesTheStatusOnly : Prop :=
  ∀ (s t : State), step s = .next t → t.status ≠ .running →
    t = { s with status := t.status } ∧ ∀ code, t.status = .halted code → code = 0

/-- 60_exceptions.md R170 and R177: a step ends in an error only for the stated reasons, with the stated
info (log entries 17, 18, 22). -/
def Obligations.StepErrorsHaveTheStatedCauses : Prop :=
  ∀ (s t : State) (kind : ErrorKind) (info : Word), step s = .next t → t.status = .fatal kind info →
    (kind = .misalignedFetch ∧ info = s.pc ∧ s.pc.toNat % 4 ≠ 0) ∨
    (kind = .outOfBounds ∧ info = s.pc ∧ s.params.memSize < s.pc.toNat + 4) ∨
    ∃ w, s.pc.toNat % 4 = 0 ∧ s.pc.toNat + 4 ≤ s.params.memSize ∧ holdsWord s.mem s.pc.toNat w ∧
      ((kind = .invalidOpcode ∧ info = w ∧ readInstr w = .invalidOpcode w) ∨
       (kind = .invalidInstruction ∧ info = w ∧ readInstr w = .invalidInstruction w) ∨
       ∃ i, readInstr w = .instr i ∧
        ((kind = .outOfBounds ∧ ∃ width, accessOf s i = some (info, width) ∧
            s.params.memSize < info.toNat + widthBytes width) ∨
         (kind = .illegalSyscall ∧ isEcall i = true ∧ info = s.readReg 10 ∧
            info ≠ 1 ∧ info ≠ 4 ∧ info ≠ 10 ∧ info ≠ 11) ∨
         (kind = .arithmeticFault ∧ info = w ∧ s.params.divCorner = .fatal ∧
            ∃ a b, divisionOf s i = some (a, b) ∧ (b = 0 ∨ (a = 0x80000000#32 ∧ b = 0xFFFFFFFF#32)))))

/-- 10_state.md R17: an instruction that ends with Continue leaves pc at pc + 4 or, for BEQ, BNE and JAL
only, at pc + offset; the wrap modulo 2^32 is the spec's decision D3 (log entry 23). -/
def Obligations.PcAdvancesByFourOrByTheOffset : Prop :=
  ∀ (i : Instr) (s t : State), s.status = .running → exec i s = .next t → t.status = .running →
    t.pc = s.pc + 4 ∨ ∃ off, offsetOf i = some off ∧ t.pc = s.pc + off

/-! ### Frames over all instructions -/

/-- 10_state.md R14: an instruction changes no register but the rd of its row; ECALL, the stores and the
branches change none. The parameters never change. -/
def Obligations.OnlyTheDestinationRegisterChanges : Prop :=
  ∀ (i : Instr) (s t : State) (r : RegIdx), exec i s = .next t →
    (destOf i ≠ some r → t.readReg r = s.readReg r) ∧ t.params = s.params

/-- 10_state.md R23, memory: `mem` "is mutated only by SB, SH and SW", and these change only the bytes of
their width at their address. -/
def Obligations.OnlyStoresChangeMemory : Prop :=
  ∀ (i : Instr) (s t : State), s.mem.wf → exec i s = .next t →
    (storeOf s i = none → sameMemory s t) ∧
    ∀ a w v, storeOf s i = some (a, w, v) →
      ∀ b, b < a.toNat ∨ a.toNat + widthBytes w ≤ b → t.mem.readByte b = s.mem.readByte b

/-- 10_state.md R23, console: a step appends to the console and never takes from it, and only ECALL calls
1, 4 and 11 append. -/
def Obligations.OnlyEcallAppendsToTheConsole : Prop :=
  ∀ (i : Instr) (s t : State), exec i s = .next t →
    (∃ bytes, t.console = s.console ++ bytes) ∧
    (t.console ≠ s.console → isEcall i = true ∧
      (s.readReg 10 = 1 ∨ s.readReg 10 = 4 ∨ s.readReg 10 = 11))

/-- 10_state.md R23: "the program cannot read it back": what a step does, and what it prints, does not
depend on what the console holds. -/
def Obligations.TheConsoleCannotBeReadBack : Prop :=
  ∀ (s t : State) (c : List Byte), step s = .next t →
    ∃ bytes, t.console = s.console ++ bytes ∧
      step { s with console := c } = .next { t with console := c ++ bytes }

/-! ### Register 0 -/

/-- 10_state.md R12 and 30_encoding.md R69 (the spec's decision D1, log entry 1): with the zero register
hard-wired, x[0] reads 0, and every instruction whose rd is 0 and that does not end in an error executes
normally with all registers as before: the write is discarded. -/
def Obligations.AWriteToHardwiredZeroIsDiscarded : Prop :=
  ∀ (i : Instr) (s : State), s.params.zeroRegHardwired = true → s.readReg 0 = 0 ∧
    (destOf i = some 0 →
      (∀ a w, accessOf s i = some (a, w) → a.toNat + widthBytes w ≤ s.params.memSize) →
      (∀ a b, divisionOf s i = some (a, b) → s.params.divCorner = .fatal →
        b ≠ 0 ∧ ¬(a = 0x80000000#32 ∧ b = 0xFFFFFFFF#32)) →
      movesOnly i s (s.pc + (offsetOf i).getD 4))

/-! ### Register-register instructions -/

/-- 41_alu_reg.md R102, R103, R104: sum, difference and product modulo 2^32. -/
def Obligations.AddSubMulWrapModulo32Bits : Prop :=
  ∀ (s : State) (rd rs1 rs2 : RegIdx), writable s rd → let a := s.readReg rs1; let b := s.readReg rs2
    (∃ v, setsOnly (.add rd rs1 rs2) s rd v (s.pc + 4) ∧ v.toNat = (a.toNat + b.toNat) % 2 ^ 32) ∧
    (∃ v, setsOnly (.sub rd rs1 rs2) s rd v (s.pc + 4) ∧ (v.toNat : Int) = (a.toNat - b.toNat : Int) % 2 ^ 32) ∧
    (∃ v, setsOnly (.mul rd rs1 rs2) s rd v (s.pc + 4) ∧ v.toNat = a.toNat * b.toNat % 2 ^ 32)

/-- 41_alu_reg.md R107, R111, R113: bit by bit. -/
def Obligations.XorOrAndWorkBitByBit : Prop :=
  ∀ (s : State) (rd rs1 rs2 : RegIdx), writable s rd → let a := s.readReg rs1; let b := s.readReg rs2
    (∃ v, setsOnly (.xor rd rs1 rs2) s rd v (s.pc + 4) ∧
      ∀ k < 32, v.getLsbD k = (a.getLsbD k != b.getLsbD k)) ∧
    (∃ v, setsOnly (.or rd rs1 rs2) s rd v (s.pc + 4) ∧
      ∀ k < 32, v.getLsbD k = (a.getLsbD k || b.getLsbD k)) ∧
    (∃ v, setsOnly (.and rd rs1 rs2) s rd v (s.pc + 4) ∧
      ∀ k < 32, v.getLsbD k = (a.getLsbD k && b.getLsbD k))

/-- 41_alu_reg.md R106: 1 if signed(a) < signed(b), else 0. -/
def Obligations.SltComparesAsSigned : Prop :=
  ∀ (s : State) (rd rs1 rs2 : RegIdx), writable s rd →
    setsOnly (.slt rd rs1 rs2) s rd
      (if (s.readReg rs1).toInt < (s.readReg rs2).toInt then 1 else 0) (s.pc + 4)

/-- 41_alu_reg.md R105, R109, R110: shifts by the value of rs2 modulo 32 (its low five bits, the spec's
decision D26, log entry 15); SRA is floor(signed(a) / 2^amount). -/
def Obligations.RegisterShiftsUseTheLowFiveBits : Prop :=
  ∀ (s : State) (rd rs1 rs2 : RegIdx), writable s rd →
    let a := s.readReg rs1; let n := (s.readReg rs2).toNat % 32
    (∃ v, setsOnly (.sll rd rs1 rs2) s rd v (s.pc + 4) ∧ v.toNat = a.toNat * 2 ^ n % 2 ^ 32) ∧
    (∃ v, setsOnly (.srl rd rs1 rs2) s rd v (s.pc + 4) ∧ v.toNat = a.toNat / 2 ^ n) ∧
    (∃ v, setsOnly (.sra rd rs1 rs2) s rd v (s.pc + 4) ∧ v.toInt = a.toInt / 2 ^ n)

/-- 41_alu_reg.md R108, R112: away from the corner cases DIV truncates toward zero and REM has the sign of
the dividend (that they pair is PRESUMED by the spec, G7, log entry 29), whatever DIV_CORNER is. -/
def Obligations.DivTruncatesAndRemFollowsTheDividend : Prop :=
  ∀ (s : State) (rd rs1 rs2 : RegIdx), writable s rd → let a := s.readReg rs1; let b := s.readReg rs2
    b ≠ 0 → ¬(a = 0x80000000#32 ∧ b = 0xFFFFFFFF#32) →
    (∃ v, setsOnly (.div rd rs1 rs2) s rd v (s.pc + 4) ∧ v.toInt = a.toInt.tdiv b.toInt) ∧
    (∃ v, setsOnly (.rem rd rs1 rs2) s rd v (s.pc + 4) ∧ v.toInt = a.toInt.tmod b.toInt)

/-- 41_alu_reg.md R114 under DIV_CORNER = RISCV_M (the spec's decision D17, log entry 5): the values of the
corner cases. -/
def Obligations.DivisionCornersUnderRiscvM : Prop :=
  ∀ (s : State) (rd rs1 rs2 : RegIdx), writable s rd → s.params.divCorner = .riscvM →
    let a := s.readReg rs1; let b := s.readReg rs2
    (b = 0 → setsOnly (.div rd rs1 rs2) s rd 0xFFFFFFFF#32 (s.pc + 4) ∧
      setsOnly (.rem rd rs1 rs2) s rd a (s.pc + 4)) ∧
    (a = 0x80000000#32 ∧ b = 0xFFFFFFFF#32 → setsOnly (.div rd rs1 rs2) s rd 0x80000000#32 (s.pc + 4) ∧
      setsOnly (.rem rd rs1 rs2) s rd 0 (s.pc + 4))

/-- 41_alu_reg.md R114 under DIV_CORNER = FATAL (D17, log entries 5 and 28): the corner cases raise
ArithmeticFault with the word, before any write. -/
def Obligations.DivisionCornersUnderFatal : Prop :=
  ∀ (s : State) (rd rs1 rs2 : RegIdx), s.params.divCorner = .fatal →
    s.readReg rs2 = 0 ∨ (s.readReg rs1 = 0x80000000#32 ∧ s.readReg rs2 = 0xFFFFFFFF#32) →
    raises (.div rd rs1 rs2) s .arithmeticFault (encode (.div rd rs1 rs2)) ∧
    raises (.rem rd rs1 rs2) s .arithmeticFault (encode (.rem rd rs1 rs2))

/-- 41_alu_reg.md R114: `div32(a,b) * b + rem32(a,b) = a` (mod 2^32) "in all cases, corner cases included"
under DIV_CORNER = RISCV_M (D17, log entry 5), read from two destination registers. -/
def Obligations.QuotientTimesDivisorPlusRemainder : Prop :=
  ∀ (s : State) (rd rs1 rs2 : RegIdx), writable s rd → s.params.divCorner = .riscvM →
    ∃ q r, setsOnly (.div rd rs1 rs2) s rd q (s.pc + 4) ∧ setsOnly (.rem rd rs1 rs2) s rd r (s.pc + 4) ∧
      q * s.readReg rs2 + r = s.readReg rs1

/-! ### Register-immediate instructions and LUI -/

/-- 42_alu_imm.md R121, R124, R128: ADDI, XORI, ANDI with the sign-extended immediate. -/
def Obligations.AddiXoriAndiUseTheSignedImmediate : Prop :=
  ∀ (s : State) (rd rs1 : RegIdx) (imm : BitVec 12), writable s rd → let a := s.readReg rs1
    (∃ v, setsOnly (.addi rd rs1 imm) s rd v (s.pc + 4) ∧ (v.toNat : Int) = (a.toNat + imm.toInt) % 2 ^ 32) ∧
    (∃ v, setsOnly (.xori rd rs1 imm) s rd v (s.pc + 4) ∧
      ∀ k < 32, v.getLsbD k = (a.getLsbD k != imm.getLsbD (min k 11))) ∧
    (∃ v, setsOnly (.andi rd rs1 imm) s rd v (s.pc + 4) ∧
      ∀ k < 32, v.getLsbD k = (a.getLsbD k && imm.getLsbD (min k 11)))

/-- 42_alu_imm.md R123, R127 (the spec's decisions D15 and D14 between the source's contract and a reported
bug, log entry 14): SLTI compares with, and ORI ors, the sign-extended immediate. -/
def Obligations.SltiOriUseTheSignedImmediate : Prop :=
  ∀ (s : State) (rd rs1 : RegIdx) (imm : BitVec 12), writable s rd → let a := s.readReg rs1
    setsOnly (.slti rd rs1 imm) s rd (if a.toInt < imm.toInt then 1 else 0) (s.pc + 4) ∧
    (∃ v, setsOnly (.ori rd rs1 imm) s rd v (s.pc + 4) ∧
      ∀ k < 32, v.getLsbD k = (a.getLsbD k || imm.getLsbD (min k 11)))

/-- 42_alu_imm.md R122, R125, R126: shifts by imm[4:0]; the other bits of the immediate do not matter (the
spec's decision D11, log entry 11). -/
def Obligations.ImmediateShiftsUseTheLowFiveBits : Prop :=
  ∀ (s : State) (rd rs1 : RegIdx) (imm : BitVec 12), writable s rd →
    let a := s.readReg rs1; let n := imm.toNat % 32
    (∃ v, setsOnly (.slli rd rs1 imm) s rd v (s.pc + 4) ∧ v.toNat = a.toNat * 2 ^ n % 2 ^ 32) ∧
    (∃ v, setsOnly (.srli rd rs1 imm) s rd v (s.pc + 4) ∧ v.toNat = a.toNat / 2 ^ n) ∧
    (∃ v, setsOnly (.srai rd rs1 imm) s rd v (s.pc + 4) ∧ v.toInt = a.toInt / 2 ^ n)

/-- 42_alu_imm.md R129: bits 31:12 of the result are the immediate and bits 11:0 are zero. -/
def Obligations.LuiPlacesTheUpperImmediate : Prop :=
  ∀ (s : State) (rd : RegIdx) (imm : BitVec 20), writable s rd →
    ∃ v, setsOnly (.lui rd imm) s rd v (s.pc + 4) ∧ v.toNat = imm.toNat * 2 ^ 12

/-- 30_encoding.md R71: `li rd, imm32` as LUI then ADDI leaves the constant in rd (the pseudo-instruction is
from general knowledge, log entry 33). -/
def Obligations.LoadImmediatePairGivesTheConstant : Prop :=
  ∀ (s : State) (rd : RegIdx) (v : Word), writable s rd → rd ≠ 0 →
    ∃ i j t, pseudoLi rd v = [i, j] ∧ exec i s = .next t ∧ setsOnly j t rd v (s.pc + 8)

/-! ### Branches and the jump -/

/-- 43_branch_jump.md R141, R142: the target is the branch's own address plus the offset; not taken is
pc + 4; no register is written. -/
def Obligations.BranchesGoToTheirOffsetOrFallThrough : Prop :=
  ∀ (s : State) (rs1 rs2 : RegIdx) (immLo : BitVec 5) (immHi : BitVec 7),
    let off := branchOffset immLo immHi
    movesOnly (.beq rs1 rs2 immLo immHi) s
      (if s.readReg rs1 = s.readReg rs2 then s.pc + off else s.pc + 4) ∧
    movesOnly (.bne rs1 rs2 immLo immHi) s
      (if s.readReg rs1 = s.readReg rs2 then s.pc + 4 else s.pc + off)

/-- 43_branch_jump.md R143: rd takes pc + 4, pc takes pc + offset, both from the jump's own address. -/
def Obligations.JalLinksAndJumps : Prop :=
  ∀ (s : State) (rd : RegIdx) (imm : BitVec 20), writable s rd →
    setsOnly (.jal rd imm) s rd (s.pc + 4) (s.pc + jumpOffset imm)

/-! ### Loads and stores -/

/-- 44_load_store.md R154: LW inside memory, at any address aligned or not (the spec's decisions D18, D20, log
entry 16). -/
def Obligations.LoadWordReadsFourBytes : Prop :=
  ∀ (s : State) (rd rs1 : RegIdx) (imm : BitVec 12), writable s rd →
    let ea := s.readReg rs1 + imm.signExtend 32; let byte := fun k => (s.mem.readByte (ea.toNat + k)).toNat
    ea.toNat + 4 ≤ s.params.memSize →
    ∃ v, setsOnly (.lw rd rs1 imm) s rd v (s.pc + 4) ∧
      v.toNat = byte 0 + 2 ^ 8 * byte 1 + 2 ^ 16 * byte 2 + 2 ^ 24 * byte 3

/-- 44_load_store.md R152, R153: LB and LH inside memory zero-extend (the spec's decision D16, log entry
14). -/
def Obligations.SubWordLoadsZeroExtend : Prop :=
  ∀ (s : State) (rd rs1 : RegIdx) (imm : BitVec 12), writable s rd →
    let ea := s.readReg rs1 + imm.signExtend 32; let byte := fun k => (s.mem.readByte (ea.toNat + k)).toNat
    (ea.toNat + 1 ≤ s.params.memSize →
      ∃ v, setsOnly (.lb rd rs1 imm) s rd v (s.pc + 4) ∧ v.toNat = byte 0) ∧
    (ea.toNat + 2 ≤ s.params.memSize →
      ∃ v, setsOnly (.lh rd rs1 imm) s rd v (s.pc + 4) ∧ v.toNat = byte 0 + 256 * byte 1)

/-- 44_load_store.md R155, R156, R157: a store inside memory writes the low 1, 2 or 4 bytes of x[rs2],
little-endian, at the effective address, and no other byte (D18, D20, log entry 16). -/
def Obligations.StoresWriteTheirLowBytes : Prop :=
  ∀ (s : State) (rs1 rs2 : RegIdx) (immLo : BitVec 5) (immHi : BitVec 7), s.mem.wf →
    let ea := s.readReg rs1 + storeOffset immLo immHi
    (ea.toNat + 1 ≤ s.params.memSize → storesOnly (.sb rs1 rs2 immLo immHi) s ea 1 (s.readReg rs2)) ∧
    (ea.toNat + 2 ≤ s.params.memSize → storesOnly (.sh rs1 rs2 immLo immHi) s ea 2 (s.readReg rs2)) ∧
    (ea.toNat + 4 ≤ s.params.memSize → storesOnly (.sw rs1 rs2 immLo immHi) s ea 4 (s.readReg rs2))

/-- 44_load_store.md R158 with 20_memory.md R33, R34 (the spec's decisions D18, D19, log entry 16): a load
or store beyond MEM_SIZE, the sum taken without wrap, raises OutOfBounds with its address and has no other
effect. -/
def Obligations.AccessesBeyondMemoryRaiseOutOfBounds : Prop :=
  ∀ (i : Instr) (s : State) (a : Word) (w : Width), accessOf s i = some (a, w) →
    s.params.memSize < a.toNat + widthBytes w → raises i s .outOfBounds a

/-- 20_memory.md R32 and the source's store/load property (95_test_vectors.md S5): after SW, LW from the
same address returns the word stored, LH its low 16 bits zero-extended (D16, log entry 14). -/
def Obligations.ALoadReturnsWhatTheStoreWrote : Prop :=
  ∀ (s : State) (rs1 rs2 base rd : RegIdx) (immLo : BitVec 5) (immHi : BitVec 7) (imm : BitVec 12),
    s.mem.wf → writable s rd → s.loadAddress base imm = s.storeAddress rs1 immLo immHi →
    (s.storeAddress rs1 immLo immHi).toNat + 4 ≤ s.params.memSize →
    ∃ t, exec (.sw rs1 rs2 immLo immHi) s = .next t ∧
      setsOnly (.lw rd base imm) t rd (s.readReg rs2) (s.pc + 8) ∧
      ∃ v, setsOnly (.lh rd base imm) t rd v (s.pc + 8) ∧ v.toNat = (s.readReg rs2).toNat % 2 ^ 16

/-- 20_memory.md R46 (the spec's decision D27, log entry 17): an SW of an instruction's word over the next
instruction, and the very next step runs the stored instruction. -/
def Obligations.AStoredInstructionIsFetchedByTheNextStep : Prop :=
  ∀ (s : State) (rs1 rs2 : RegIdx) (immLo : BitVec 5) (immHi : BitVec 7) (i : Instr), s.mem.wf →
    s.status = .running → s.storeAddress rs1 immLo immHi = s.pc + 4 → (s.pc + 4).toNat % 4 = 0 →
    (s.pc + 4).toNat + 4 ≤ s.params.memSize → i.wellFormed = true → s.readReg rs2 = encode i →
    ∃ t, exec (.sw rs1 rs2 immLo immHi) s = .next t ∧ step t = exec i t

/-! ### ECALL: every word with opcode 0x73, whatever its other bits (D12, log entry 12) -/

/-- 45_system.md R161, R162 (the format is the spec's decision D23, log entry 20): call 1 appends signed(x11)
in decimal: `-` when negative, then digits without leading zeros whose value is the magnitude. -/
def Obligations.EcallPrintsASignedDecimal : Prop :=
  ∀ (s : State) (rd : RegIdx) (funct3 : BitVec 3) (rs1 : RegIdx) (imm : BitVec 12), s.readReg 10 = 1 →
    ∃ digits, printsOnly (.ecall rd funct3 rs1 imm) s
        ((if (s.readReg 11).toInt < 0 then [0x2D] else []) ++ digits) ∧
      digits ≠ [] ∧ (∀ d ∈ digits, 0x30 ≤ d.toNat ∧ d.toNat ≤ 0x39) ∧
      (digits.head? = some 0x30 → digits = [0x30]) ∧
      digitsValue digits = (s.readReg 11).toInt.natAbs

/-- 45_system.md R161, R163 (the end of memory ends the string by decision D36, log entry 21): call 4
appends the bytes from x11 up to the least address that is outside memory or holds zero. -/
def Obligations.EcallPrintsTheStringUpToZeroOrTheBound : Prop :=
  ∀ (s : State) (rd : RegIdx) (funct3 : BitVec 3) (rs1 : RegIdx) (imm : BitVec 12), s.readReg 10 = 4 →
    let a := (s.readReg 11).toNat
    ∃ e, a ≤ e ∧ (s.params.memSize ≤ e ∨ s.mem.readByte e = 0) ∧
      (∀ b, a ≤ b → b < e → b < s.params.memSize ∧ s.mem.readByte b ≠ 0) ∧
      printsOnly (.ecall rd funct3 rs1 imm) s ((List.range' a (e - a)).map s.mem.readByte)

/-- 45_system.md R161, R165 (D23, log entry 20): call 11 appends the low eight bits of x11. -/
def Obligations.EcallPrintsOneCharacter : Prop :=
  ∀ (s : State) (rd : RegIdx) (funct3 : BitVec 3) (rs1 : RegIdx) (imm : BitVec 12), s.readReg 10 = 11 →
    ∃ c : Byte, printsOnly (.ecall rd funct3 rs1 imm) s [c] ∧ c.toNat = (s.readReg 11).toNat % 256

/-- 45_system.md R161, R164 (that pc stays is the spec's decision D22, log entry 18): call 10 halts with
code 0 whatever the other registers hold, and changes nothing but the status. -/
def Obligations.EcallExitHaltsWithCodeZero : Prop :=
  ∀ (s : State) (rd : RegIdx) (funct3 : BitVec 3) (rs1 : RegIdx) (imm : BitVec 12), s.readReg 10 = 10 →
    exec (.ecall rd funct3 rs1 imm) s = .next { s with status := .halted 0 }

/-- 45_system.md R166: every other call number is Fatal(IllegalSyscall) with the number as info; nothing is
printed and no state changes. -/
def Obligations.EcallRejectsEveryOtherNumber : Prop :=
  ∀ (s : State) (rd : RegIdx) (funct3 : BitVec 3) (rs1 : RegIdx) (imm : BitVec 12),
    s.readReg 10 ≠ 1 → s.readReg 10 ≠ 4 → s.readReg 10 ≠ 10 → s.readReg 10 ≠ 11 →
    raises (.ecall rd funct3 rs1 imm) s .illegalSyscall (s.readReg 10)

/-! ### Invariants -/

/-- The reset state meets the invariant, for all parameters within their bounds. -/
def Obligations.ResetMeetsTheInvariant : Prop := ∀ p : Params, p.wf → (State.resetWith p).Inv

/-- A machine booted with any program and data meets the invariant. -/
def Obligations.BootMeetsTheInvariant : Prop :=
  ∀ (p : Params) (program : List Word) (dataAt : Nat) (data : List Byte), p.wf →
    (State.boot p program dataAt data).Inv

/-- Every step from a state that meets the invariant gives one that meets it: memory canonical and inside
MEM_SIZE, the hard-wired register zero, pc even, the status one that can occur. -/
def Obligations.EveryStepKeepsTheInvariant : Prop := ∀ s t : State, s.Inv → step s = .next t → t.Inv

/-- Whatever the program, every state a booted machine reaches meets the invariant, has the parameters it
was built with, and ends, if it ends, in Halted(0) or in an error. -/
def Obligations.EveryReachedStateMeetsTheInvariant : Prop :=
  ∀ (p : Params) (program : List Word) (dataAt : Nat) (data : List Byte) (n : Nat) (t : State), p.wf →
    run n (State.boot p program dataAt data) = .next t →
    t.Inv ∧ t.params = p ∧ (t.status = .running ∨ endsWell t ∨ endsBadly t)

end Statements
end

