-- ==== Sys2Proof/Laws/Decode.lean ====
section
/-! SUPPORT. Field extraction from packed words, and packing of extracted fields (40_decoder.md R83, R91). -/

namespace Sys2Proof

section Extraction

variable (f7 : BitVec 7) (rs2 rs1 rd lo : RegIdx) (f3 : BitVec 3) (op : BitVec 7) (imm : BitVec 12)
  (imm20 : BitVec 20)

@[simp] theorem fieldOpcode_wordR : fieldOpcode (wordR f7 rs2 rs1 f3 rd op) = op := by
  unfold fieldOpcode wordR; ext i hi; grind
@[simp] theorem fieldRd_wordR : fieldRd (wordR f7 rs2 rs1 f3 rd op) = rd := by
  unfold fieldRd wordR; ext i hi; grind
@[simp] theorem fieldFunct3_wordR : fieldFunct3 (wordR f7 rs2 rs1 f3 rd op) = f3 := by
  unfold fieldFunct3 wordR; ext i hi; grind
@[simp] theorem fieldRs1_wordR : fieldRs1 (wordR f7 rs2 rs1 f3 rd op) = rs1 := by
  unfold fieldRs1 wordR; ext i hi; grind
@[simp] theorem fieldRs2_wordR : fieldRs2 (wordR f7 rs2 rs1 f3 rd op) = rs2 := by
  unfold fieldRs2 wordR; ext i hi; grind
@[simp] theorem fieldFunct7_wordR : fieldFunct7 (wordR f7 rs2 rs1 f3 rd op) = f7 := by
  unfold fieldFunct7 wordR; ext i hi; grind

@[simp] theorem fieldOpcode_wordI : fieldOpcode (wordI imm rs1 f3 rd op) = op := by
  unfold fieldOpcode wordI; ext i hi; grind
@[simp] theorem fieldRd_wordI : fieldRd (wordI imm rs1 f3 rd op) = rd := by
  unfold fieldRd wordI; ext i hi; grind
@[simp] theorem fieldFunct3_wordI : fieldFunct3 (wordI imm rs1 f3 rd op) = f3 := by
  unfold fieldFunct3 wordI; ext i hi; grind
@[simp] theorem fieldRs1_wordI : fieldRs1 (wordI imm rs1 f3 rd op) = rs1 := by
  unfold fieldRs1 wordI; ext i hi; grind
@[simp] theorem fieldImm12_wordI : fieldImm12 (wordI imm rs1 f3 rd op) = imm := by
  unfold fieldImm12 wordI; ext i hi; grind

@[simp] theorem fieldOpcode_wordS : fieldOpcode (wordS f7 rs2 rs1 f3 lo op) = op := by
  unfold fieldOpcode wordS; ext i hi; grind
@[simp] theorem fieldFunct3_wordS : fieldFunct3 (wordS f7 rs2 rs1 f3 lo op) = f3 := by
  unfold fieldFunct3 wordS; ext i hi; grind
@[simp] theorem fieldRs1_wordS : fieldRs1 (wordS f7 rs2 rs1 f3 lo op) = rs1 := by
  unfold fieldRs1 wordS; ext i hi; grind
@[simp] theorem fieldRs2_wordS : fieldRs2 (wordS f7 rs2 rs1 f3 lo op) = rs2 := by
  unfold fieldRs2 wordS; ext i hi; grind
@[simp] theorem fieldImmLo_wordS : fieldImmLo (wordS f7 rs2 rs1 f3 lo op) = lo := by
  unfold fieldImmLo wordS; ext i hi; grind
@[simp] theorem fieldImmHi_wordS : fieldImmHi (wordS f7 rs2 rs1 f3 lo op) = f7 := by
  unfold fieldImmHi wordS; ext i hi; grind

@[simp] theorem fieldOpcode_wordU : fieldOpcode (wordU imm20 rd op) = op := by
  unfold fieldOpcode wordU; ext i hi; grind
@[simp] theorem fieldRd_wordU : fieldRd (wordU imm20 rd op) = rd := by
  unfold fieldRd wordU; ext i hi; grind
@[simp] theorem fieldImm20_wordU : fieldImm20 (wordU imm20 rd op) = imm20 := by
  unfold fieldImm20 wordU; ext i hi; grind

end Extraction

/-! ### Packing the extracted fields gives the word back: each format's fields partition its 32 bits. -/

theorem wordR_fields (w : Word) :
    wordR (fieldFunct7 w) (fieldRs2 w) (fieldRs1 w) (fieldFunct3 w) (fieldRd w) (fieldOpcode w) = w := by
  unfold wordR fieldFunct7 fieldRs2 fieldRs1 fieldFunct3 fieldRd fieldOpcode; ext i hi; grind

theorem wordI_fields (w : Word) :
    wordI (fieldImm12 w) (fieldRs1 w) (fieldFunct3 w) (fieldRd w) (fieldOpcode w) = w := by
  unfold wordI fieldImm12 fieldRs1 fieldFunct3 fieldRd fieldOpcode; ext i hi; grind

theorem wordS_fields (w : Word) :
    wordS (fieldImmHi w) (fieldRs2 w) (fieldRs1 w) (fieldFunct3 w) (fieldImmLo w) (fieldOpcode w) = w := by
  unfold wordS fieldImmHi fieldRs2 fieldRs1 fieldFunct3 fieldImmLo fieldOpcode; ext i hi; grind

theorem wordU_fields (w : Word) : wordU (fieldImm20 w) (fieldRd w) (fieldOpcode w) = w := by
  unfold wordU fieldImm20 fieldRd fieldOpcode; ext i hi; grind

/-! ### A word under the masks of the opcode map (30_encoding.md R59): what is left are its fixed fields. -/

theorem and_mask_R (w : Word) :
    w &&& 0xFE00707F#32 = wordR (fieldFunct7 w) 0 0 (fieldFunct3 w) 0 (fieldOpcode w) := by
  unfold wordR fieldFunct7 fieldFunct3 fieldOpcode
  refine BitVec.eq_of_getLsbD_eq fun i hi => ?_
  simp only [BitVec.getLsbD_and, BitVec.getLsbD_append, BitVec.getLsbD_extractLsb',
    BitVec.getLsbD_ofNat]
  interval_cases i <;> simp <;> exact fun _ => by decide

theorem and_mask_I (w : Word) :
    w &&& 0x0000707F#32 = wordI 0 0 (fieldFunct3 w) 0 (fieldOpcode w) := by
  unfold wordI fieldFunct3 fieldOpcode
  refine BitVec.eq_of_getLsbD_eq fun i hi => ?_
  simp only [BitVec.getLsbD_and, BitVec.getLsbD_append, BitVec.getLsbD_extractLsb',
    BitVec.getLsbD_ofNat]
  interval_cases i <;> simp <;> exact fun _ => by decide

theorem and_mask_shift (w : Word) :
    w &&& 0x4000707F#32 = wordI ((fieldImm12 w) &&& 0x400) 0 (fieldFunct3 w) 0 (fieldOpcode w) := by
  unfold wordI fieldFunct3 fieldOpcode fieldImm12
  refine BitVec.eq_of_getLsbD_eq fun i hi => ?_
  simp only [BitVec.getLsbD_and, BitVec.getLsbD_append, BitVec.getLsbD_extractLsb',
    BitVec.getLsbD_ofNat]
  interval_cases i <;> simp <;> exact fun _ => by decide

theorem and_mask_U (w : Word) :
    w &&& 0x0000007F#32 = wordU 0 0 (fieldOpcode w) := by
  unfold wordU fieldOpcode
  refine BitVec.eq_of_getLsbD_eq fun i hi => ?_
  simp only [BitVec.getLsbD_and, BitVec.getLsbD_append, BitVec.getLsbD_extractLsb',
    BitVec.getLsbD_ofNat]
  interval_cases i <;> simp <;> exact fun _ => by decide

theorem wordR_and_mask (f7 : BitVec 7) (rs2 rs1 rd : RegIdx) (f3 : BitVec 3) (op : BitVec 7) :
    wordR f7 rs2 rs1 f3 rd op &&& 0xFE00707F#32 = wordR f7 0 0 f3 0 op := by
  rw [and_mask_R]; simp

theorem wordI_and_mask (imm : BitVec 12) (rs1 rd : RegIdx) (f3 : BitVec 3) (op : BitVec 7) :
    wordI imm rs1 f3 rd op &&& 0x0000707F#32 = wordI 0 0 f3 0 op := by
  rw [and_mask_I]; simp

theorem wordI_and_mask_shift (imm : BitVec 12) (rs1 rd : RegIdx) (f3 : BitVec 3) (op : BitVec 7) :
    wordI imm rs1 f3 rd op &&& 0x4000707F#32 = wordI (imm &&& 0x400) 0 f3 0 op := by
  rw [and_mask_shift]; simp

theorem wordI_and_mask_U (imm : BitVec 12) (rs1 rd : RegIdx) (f3 : BitVec 3) (op : BitVec 7) :
    wordI imm rs1 f3 rd op &&& 0x0000007F#32 = wordU 0 0 op := by
  rw [and_mask_U]; simp

theorem wordS_and_mask (f7 : BitVec 7) (rs2 rs1 rd : RegIdx) (f3 : BitVec 3) (op : BitVec 7) :
    wordS f7 rs2 rs1 f3 rd op &&& 0x0000707F#32 = wordI 0 0 f3 0 op := by
  rw [and_mask_I]; simp

theorem wordU_and_mask (imm : BitVec 20) (rd : RegIdx) (op : BitVec 7) :
    wordU imm rd op &&& 0x0000007F#32 = wordU 0 0 op := by
  rw [and_mask_U]; simp

theorem fields_of_mask_R {w p : Word} (h : w &&& 0xFE00707F#32 = p) :
    fieldFunct7 w = fieldFunct7 p ∧ fieldFunct3 w = fieldFunct3 p ∧ fieldOpcode w = fieldOpcode p := by
  subst h; simp [and_mask_R]

theorem fields_of_mask_I {w p : Word} (h : w &&& 0x0000707F#32 = p) :
    fieldFunct3 w = fieldFunct3 p ∧ fieldOpcode w = fieldOpcode p := by
  subst h; simp [and_mask_I]

theorem fields_of_mask_shift {w p : Word} (h : w &&& 0x4000707F#32 = p) :
    (fieldImm12 w).getLsbD 10 = (fieldImm12 p).getLsbD 10 ∧ fieldFunct3 w = fieldFunct3 p ∧
      fieldOpcode w = fieldOpcode p := by
  subst h; simp [and_mask_shift]

theorem fieldOpcode_of_mask_U {w p : Word} (h : w &&& 0x0000007F#32 = p) :
    fieldOpcode w = fieldOpcode p := by
  subst h; simp [and_mask_U]

/-! ### The fields of a word by its opcode (40_decoder.md R84) -/

section ByOpcode

variable {w : Word}

theorem fieldsOf_0x33 (h : fieldOpcode w = 0x33#7) :
    fieldsOf w = some (.R (fieldRd w) (fieldFunct3 w) (fieldRs1 w) (fieldRs2 w) (fieldFunct7 w)) := by
  rw [fieldsOf, h]; rfl

theorem fieldsOf_0x13 (h : fieldOpcode w = 0x13#7) :
    fieldsOf w = some (.I (fieldRd w) (fieldFunct3 w) (fieldRs1 w) (fieldImm12 w)) := by
  rw [fieldsOf, h]; rfl

theorem fieldsOf_0x03 (h : fieldOpcode w = 0x03#7) :
    fieldsOf w = some (.I (fieldRd w) (fieldFunct3 w) (fieldRs1 w) (fieldImm12 w)) := by
  rw [fieldsOf, h]; rfl

theorem fieldsOf_0x73 (h : fieldOpcode w = 0x73#7) :
    fieldsOf w = some (.I (fieldRd w) (fieldFunct3 w) (fieldRs1 w) (fieldImm12 w)) := by
  rw [fieldsOf, h]; rfl

theorem fieldsOf_0x23 (h : fieldOpcode w = 0x23#7) :
    fieldsOf w = some (.S (fieldFunct3 w) (fieldRs1 w) (fieldRs2 w) (fieldImmLo w) (fieldImmHi w)) := by
  rw [fieldsOf, h]; rfl

theorem fieldsOf_0x63 (h : fieldOpcode w = 0x63#7) :
    fieldsOf w = some (.B (fieldFunct3 w) (fieldRs1 w) (fieldRs2 w) (fieldImmLo w) (fieldImmHi w)) := by
  rw [fieldsOf, h]; rfl

theorem fieldsOf_0x6F (h : fieldOpcode w = 0x6F#7) :
    fieldsOf w = some (.J (fieldRd w) (fieldImm20 w)) := by
  rw [fieldsOf, h]; rfl

theorem fieldsOf_0x37 (h : fieldOpcode w = 0x37#7) :
    fieldsOf w = some (.U (fieldRd w) (fieldImm20 w)) := by
  rw [fieldsOf, h]; rfl

theorem fieldsOf_eq_none (h : fieldOpcode w ≠ 0x33#7 ∧ fieldOpcode w ≠ 0x13#7 ∧ fieldOpcode w ≠ 0x03#7 ∧
    fieldOpcode w ≠ 0x73#7 ∧ fieldOpcode w ≠ 0x23#7 ∧ fieldOpcode w ≠ 0x63#7 ∧ fieldOpcode w ≠ 0x6F#7 ∧
    fieldOpcode w ≠ 0x37#7) : fieldsOf w = none := by
  unfold fieldsOf
  split <;> simp_all

end ByOpcode

/-! ### What classifying can answer: an instruction of the opcode's format with the fields given (R90) -/

theorem classifyReg_eq_some {f3 : BitVec 3} {f7 : BitVec 7} {rd rs1 rs2 : RegIdx} {i : Instr}
    (h : classifyReg f3 f7 rd rs1 rs2 = some i) :
    encode i = wordR f7 rs2 rs1 f3 rd 0x33#7 ∧ i.wellFormed = true := by
  unfold classifyReg at h
  split at h <;> cases h <;> exact ⟨rfl, rfl⟩

theorem classifyImm_eq_some {f3 : BitVec 3} {rd rs1 : RegIdx} {imm : BitVec 12} {i : Instr}
    (h : classifyImm f3 rd rs1 imm = some i) :
    encode i = wordI imm rs1 f3 rd 0x13#7 ∧ i.wellFormed = true := by
  unfold classifyImm at h
  split at h
  case h_5 => split at h <;> cases h <;> exact ⟨rfl, by simp_all [Instr.wellFormed]⟩
  all_goals cases h <;> exact ⟨rfl, rfl⟩

theorem classifyLoad_eq_some {f3 : BitVec 3} {rd rs1 : RegIdx} {imm : BitVec 12} {i : Instr}
    (h : classifyLoad f3 rd rs1 imm = some i) :
    encode i = wordI imm rs1 f3 rd 0x03#7 ∧ i.wellFormed = true := by
  unfold classifyLoad at h
  split at h <;> cases h <;> exact ⟨rfl, rfl⟩

theorem classifyStore_eq_some {f3 : BitVec 3} {rs1 rs2 : RegIdx} {lo : BitVec 5} {hi : BitVec 7}
    {i : Instr}
    (h : classifyStore f3 rs1 rs2 lo hi = some i) :
    encode i = wordS hi rs2 rs1 f3 lo 0x23#7 ∧ i.wellFormed = true := by
  unfold classifyStore at h
  split at h <;> cases h <;> exact ⟨rfl, rfl⟩

theorem classifyBranch_eq_some {f3 : BitVec 3} {rs1 rs2 : RegIdx} {lo : BitVec 5} {hi : BitVec 7}
    {i : Instr}
    (h : classifyBranch f3 rs1 rs2 lo hi = some i) :
    encode i = wordS hi rs2 rs1 f3 lo 0x63#7 ∧ i.wellFormed = true := by
  unfold classifyBranch at h
  split at h <;> cases h <;> exact ⟨rfl, rfl⟩

theorem readInstr_eq_instr {w : Word} {i : Instr} (h : readInstr w = .instr i) :
    ∃ f, fieldsOf w = some f ∧ classify { raw := w, opcode := fieldOpcode w, fields := f } = some i := by
  unfold readInstr decode at h
  cases hf : fieldsOf w with
  | none => simp [hf] at h
  | some f =>
    simp only [hf] at h
    refine ⟨f, rfl, ?_⟩
    split at h
    · cases h; assumption
    · cases h

theorem readInstr_of_fields {w : Word} {f : Fields} (h : fieldsOf w = some f) :
    readInstr w = match classify { raw := w, opcode := fieldOpcode w, fields := f } with
      | some i => .instr i
      | none => .invalidInstruction w := by
  simp only [readInstr, decode, h]
  all_goals (cases classify _ <;> rfl)

theorem readInstr_of_no_fields {w : Word} (h : fieldsOf w = none) : readInstr w = .invalidOpcode w := by
  simp only [readInstr, decode, h]

/-! ### Reading a word by its opcode -/

theorem readInstr_0x33 {w : Word} (h : fieldOpcode w = 0x33#7) : readInstr w =
  match classifyReg (fieldFunct3 w) (fieldFunct7 w) (fieldRd w) (fieldRs1 w) (fieldRs2 w) with
      | some i => .instr i
      | none => .invalidInstruction w := by
  rw [readInstr_of_fields (fieldsOf_0x33 h)]; rfl

theorem readInstr_0x13 {w : Word} (h : fieldOpcode w = 0x13#7) : readInstr w =
  match classifyImm (fieldFunct3 w) (fieldRd w) (fieldRs1 w) (fieldImm12 w) with
      | some i => .instr i
      | none => .invalidInstruction w := by
  rw [readInstr_of_fields (fieldsOf_0x13 h), h]; rfl

theorem readInstr_0x03 {w : Word} (h : fieldOpcode w = 0x03#7) : readInstr w =
  match classifyLoad (fieldFunct3 w) (fieldRd w) (fieldRs1 w) (fieldImm12 w) with
      | some i => .instr i
      | none => .invalidInstruction w := by
  rw [readInstr_of_fields (fieldsOf_0x03 h), h]; rfl

theorem readInstr_0x73 {w : Word} (h : fieldOpcode w = 0x73#7) : readInstr w =
  .instr (.ecall (fieldRd w) (fieldFunct3 w) (fieldRs1 w) (fieldImm12 w)) := by
  rw [readInstr_of_fields (fieldsOf_0x73 h), h]; rfl

theorem readInstr_0x23 {w : Word} (h : fieldOpcode w = 0x23#7) : readInstr w =
  match classifyStore (fieldFunct3 w) (fieldRs1 w) (fieldRs2 w) (fieldImmLo w) (fieldImmHi w) with
      | some i => .instr i
      | none => .invalidInstruction w := by
  rw [readInstr_of_fields (fieldsOf_0x23 h)]; rfl

theorem readInstr_0x63 {w : Word} (h : fieldOpcode w = 0x63#7) : readInstr w =
  match classifyBranch (fieldFunct3 w) (fieldRs1 w) (fieldRs2 w) (fieldImmLo w) (fieldImmHi w) with
      | some i => .instr i
      | none => .invalidInstruction w := by
  rw [readInstr_of_fields (fieldsOf_0x63 h)]; rfl

theorem readInstr_0x6F {w : Word} (h : fieldOpcode w = 0x6F#7) : readInstr w =
  .instr (.jal (fieldRd w) (fieldImm20 w)) := by
  rw [readInstr_of_fields (fieldsOf_0x6F h)]; rfl

theorem readInstr_0x37 {w : Word} (h : fieldOpcode w = 0x37#7) : readInstr w =
  .instr (.lui (fieldRd w) (fieldImm20 w)) := by
  rw [readInstr_of_fields (fieldsOf_0x37 h)]; rfl

/-- Funct3 = 5 of opcode 0x13: immediate bit 10 selects. -/
theorem classifyImm_shift {f3 : BitVec 3} (h : f3 = 5#3) (rd rs1 : RegIdx) (imm : BitVec 12) :
    classifyImm f3 rd rs1 imm = some (if imm.getLsbD 10 then .srai rd rs1 imm else .srli rd rs1 imm) := by
  rw [h]; rfl

theorem readInstr_eq_invalidOpcode {w raw : Word} (h : readInstr w = .invalidOpcode raw) :
    raw = w ∧ fieldsOf w = none := by
  unfold readInstr decode at h
  cases hf : fieldsOf w with
  | none => simp only [hf] at h; cases h; exact ⟨rfl, rfl⟩
  | some f => simp only [hf] at h; split at h <;> cases h

theorem readInstr_eq_invalidInstruction {w raw : Word} (h : readInstr w = .invalidInstruction raw) :
    raw = w ∧ (fieldsOf w).isSome := by
  unfold readInstr decode at h
  cases hf : fieldsOf w with
  | none => simp only [hf] at h; cases h
  | some f => simp only [hf] at h; split at h <;> cases h; exact ⟨rfl, rfl⟩

/-- A word is the little-endian assembly of its bytes. -/
@[simp] theorem wordOfBytes_byteOf (w : Word) :
    wordOfBytes (byteOf w 0) (byteOf w 1) (byteOf w 2) (byteOf w 3) = w := by
  unfold wordOfBytes byteOf; ext i hi; grind

end Sys2Proof
end

