-- ==== Sys2Proof/Laws/Memory.lean ====
section
/-! SUPPORT. The laws of memory: read after write, the canonical form, the bound, and the bytes of a
little-endian access (20_memory.md R32 to R38). -/

namespace Sys2Proof.Machine

/-! ### The canonical form -/

theorem Memory.wf_nil : Memory.wf [] := by simp [Memory.wf]

/-- A cell in front of a canonical memory. -/
theorem Memory.wf_cons (c : Host.Cell) (m : Memory) :
    Memory.wf (c :: m) ↔ (∀ d ∈ m, c.1 < d.1) ∧ c.2 ≠ Memory.unlisted ∧ Memory.wf m := by
  simp only [Memory.wf, List.pairwise_cons, List.mem_cons, forall_eq_or_imp]; tauto

/-- Every cell after a write is the one written or was there before. -/
theorem Memory.mem_writeByte {m : Memory} {a : Nat} {v : Byte} {c : Host.Cell}
    (h : c ∈ m.writeByte a v) : c = (a, v) ∨ c ∈ m := by
  induction m with
  | nil => simp only [Memory.writeByte] at h; split at h <;> simp_all
  | cons d m ih =>
    simp only [Memory.writeByte] at h
    grind

/-- A write keeps the canonical form. -/
theorem Memory.wf_writeByte {m : Memory} (h : m.wf) (a : Nat) (v : Byte) : (m.writeByte a v).wf := by
  induction m with
  | nil =>
    unfold Memory.writeByte
    split
    · exact Memory.wf_nil
    · exact (Memory.wf_cons _ _).2 ⟨by simp, ‹_›, Memory.wf_nil⟩
  | cons d m ih =>
    obtain ⟨a', v'⟩ := d
    have hd := (Memory.wf_cons _ _).1 h
    unfold Memory.writeByte
    split
    · split
      · exact h
      · refine (Memory.wf_cons _ _).2 ⟨?_, ‹_›, h⟩
        intro d hmem
        rcases List.mem_cons.1 hmem with rfl | hmem
        · assumption
        · have := hd.1 d hmem; simp at this ⊢; omega
    · split
      · split
        · exact hd.2.2
        · subst_vars; exact (Memory.wf_cons _ _).2 ⟨hd.1, ‹_›, hd.2.2⟩
      · refine (Memory.wf_cons _ _).2 ⟨?_, hd.2.1, ih hd.2.2⟩
        intro d hmem
        rcases Memory.mem_writeByte hmem with rfl | hmem
        · simp; omega
        · exact hd.1 d hmem

theorem Memory.wf_writeLE {m : Memory} (h : m.wf) (a n : Nat) (v : Word) : (m.writeLE a n v).wf := by
  induction n generalizing m a v with
  | zero => exact h
  | succ n ih => exact ih (Memory.wf_writeByte h a _) _ _

/-- A write below MEM_SIZE lists no address at or above it. -/
theorem Memory.bounded_writeByte {m : Memory} {size a : Nat} (h : ∀ c ∈ m, c.1 < size) (ha : a < size)
    (v : Byte) : ∀ c ∈ m.writeByte a v, c.1 < size := by
  intro c hc
  rcases Memory.mem_writeByte hc with rfl | hc
  · exact ha
  · exact h c hc

theorem Memory.bounded_writeLE {m : Memory} {size a n : Nat} (h : ∀ c ∈ m, c.1 < size)
    (ha : a + n ≤ size) (v : Word) : ∀ c ∈ m.writeLE a n v, c.1 < size := by
  induction n generalizing m a v with
  | zero => exact h
  | succ n ih => exact ih (Memory.bounded_writeByte h (by omega) _) (by omega) _

/-! ### Read after write -/

/-- Below the first listed address memory reads as unlisted. -/
theorem Memory.readByte_of_lt {m : Memory} {b : Nat} (h : ∀ d ∈ m, b < d.1) :
    m.readByte b = Memory.unlisted := by
  rcases m with _ | ⟨d, m⟩
  · rfl
  · simp [Memory.readByte, h d List.mem_cons_self]

/-- The byte written reads back and every other byte is untouched. -/
theorem Memory.readByte_writeByte {m : Memory} (h : m.wf) (a b : Nat) (v : Byte) :
    (m.writeByte a v).readByte b = if b = a then v else m.readByte b := by
  induction m with
  | nil => simp only [Memory.writeByte]; grind [Memory.readByte]
  | cons d m ih =>
    obtain ⟨a', v'⟩ := d
    have hd := (Memory.wf_cons _ _).1 h
    have hlow : b ≤ a' → Memory.readByte m b = Memory.unlisted := fun hb =>
      Memory.readByte_of_lt fun d hmem => lt_of_le_of_lt hb (hd.1 d hmem)
    have ih := ih hd.2.2
    simp only [Memory.writeByte]
    grind [Memory.readByte]

/-- The bytes of a little-endian write of at most four bytes. -/
theorem Memory.readByte_writeLE {m : Memory} (h : m.wf) (a n : Nat) (v : Word) (b : Nat) :
    (m.writeLE a n v).readByte b = if a ≤ b ∧ b < a + n then byteOf v (b - a) else m.readByte b := by
  induction n generalizing m a v with
  | zero => rw [if_neg (by omega)]; rfl
  | succ n ih =>
    rw [Memory.writeLE, ih (Memory.wf_writeByte h a _), Memory.readByte_writeByte h]
    by_cases hb : b = a
    · subst hb; simp [byteOf]; ext i hi; grind
    · by_cases hin : a + 1 ≤ b ∧ b < a + 1 + n
      · rw [if_pos hin, if_pos (by omega)]
        unfold byteOf; ext i hi; grind
      · rw [if_neg hin, if_neg hb, if_neg (by omega)]

/-- The bytes of a little-endian read. -/
theorem Memory.byteOf_readLE (m : Memory) (a n k : Nat) (hk : k < 4) :
    byteOf (m.readLE a n) k = if k < n then m.readByte (a + k) else 0 := by
  induction n generalizing a k with
  | zero => simp [Memory.readLE, byteOf]
  | succ n ih =>
    rw [Memory.readLE]
    cases k with
    | zero => simp [byteOf]; ext i hi; grind
    | succ k =>
      have := ih (a + 1) k (by omega)
      rw [show a + (k + 1) = a + 1 + k by omega]
      rw [if_congr (by omega : k + 1 < n + 1 ↔ k < n) rfl rfl, ← this]
      unfold byteOf; ext i hi; grind

/-- Two words with the same four bytes are equal. -/
theorem word_ext {v w : Word} (h : ∀ k < 4, byteOf v k = byteOf w k) : v = w := by
  rw [← wordOfBytes_byteOf v, ← wordOfBytes_byteOf w, h 0 (by omega), h 1 (by omega), h 2 (by omega),
    h 3 (by omega)]

/-- A read looks at the bytes it reads and at nothing else. -/
theorem Memory.readLE_congr {m m' : Memory} {a n : Nat}
    (h : ∀ b, a ≤ b → b < a + n → m.readByte b = m'.readByte b) : m.readLE a n = m'.readLE a n := by
  induction n generalizing a with
  | zero => rfl
  | succ n ih =>
    rw [Memory.readLE, Memory.readLE, h a (by omega) (by omega), ih fun b h1 h2 => h b (by omega) (by omega)]

/-- A word as a number, from its bytes (R33: the sum of mem[addr+i] * 2^(8*i)). -/
theorem toNat_eq_bytes (w : Word) :
    w.toNat = (byteOf w 0).toNat + 2 ^ 8 * (byteOf w 1).toNat + 2 ^ 16 * (byteOf w 2).toNat
      + 2 ^ 24 * (byteOf w 3).toNat := by
  have := w.isLt
  simp only [byteOf, BitVec.extractLsb'_toNat, Nat.shiftRight_eq_div_pow]
  omega

end Sys2Proof.Machine
end

