-- ==== Sys2Proof/Laws/State.lean ====
section
/-! SUPPORT. One lemma per field per update of the state, and the laws of the register accessors
(10_state.md R11, R12, R17). -/

namespace Sys2Proof.Machine

variable (s : State) (i j : RegIdx) (v t : Word) (bytes : List Byte) (m : Memory)
  (st : Status)

/-! ### setPc and advance -/

@[simp] theorem State.setPc_x : (s.setPc t).x = s.x := rfl
@[simp] theorem State.setPc_pc : (s.setPc t).pc = t := rfl
@[simp] theorem State.setPc_mem : (s.setPc t).mem = s.mem := rfl
@[simp] theorem State.setPc_console : (s.setPc t).console = s.console := rfl
@[simp] theorem State.setPc_status : (s.setPc t).status = s.status := rfl
@[simp] theorem State.setPc_params : (s.setPc t).params = s.params := rfl

@[simp] theorem State.advance_x : s.advance.x = s.x := rfl
@[simp] theorem State.advance_pc : s.advance.pc = s.pc + 4 := rfl
@[simp] theorem State.advance_mem : s.advance.mem = s.mem := rfl
@[simp] theorem State.advance_console : s.advance.console = s.console := rfl
@[simp] theorem State.advance_status : s.advance.status = s.status := rfl
@[simp] theorem State.advance_params : s.advance.params = s.params := rfl

/-! ### consoleWrite -/

@[simp] theorem State.consoleWrite_x : (s.consoleWrite bytes).x = s.x := rfl
@[simp] theorem State.consoleWrite_pc : (s.consoleWrite bytes).pc = s.pc := rfl
@[simp] theorem State.consoleWrite_mem : (s.consoleWrite bytes).mem = s.mem := rfl
@[simp] theorem State.consoleWrite_console : (s.consoleWrite bytes).console = s.console ++ bytes := rfl
@[simp] theorem State.consoleWrite_status : (s.consoleWrite bytes).status = s.status := rfl
@[simp] theorem State.consoleWrite_params : (s.consoleWrite bytes).params = s.params := rfl

/-! ### setMem -/

@[simp] theorem State.setMem_x : (s.setMem m).x = s.x := rfl
@[simp] theorem State.setMem_pc : (s.setMem m).pc = s.pc := rfl
@[simp] theorem State.setMem_mem : (s.setMem m).mem = m := rfl
@[simp] theorem State.setMem_console : (s.setMem m).console = s.console := rfl
@[simp] theorem State.setMem_status : (s.setMem m).status = s.status := rfl
@[simp] theorem State.setMem_params : (s.setMem m).params = s.params := rfl

/-! ### setStatus -/

@[simp] theorem State.setStatus_x : (s.setStatus st).x = s.x := rfl
@[simp] theorem State.setStatus_pc : (s.setStatus st).pc = s.pc := rfl
@[simp] theorem State.setStatus_mem : (s.setStatus st).mem = s.mem := rfl
@[simp] theorem State.setStatus_console : (s.setStatus st).console = s.console := rfl
@[simp] theorem State.setStatus_status : (s.setStatus st).status = st := rfl
@[simp] theorem State.setStatus_params : (s.setStatus st).params = s.params := rfl

/-! ### writeReg -/

@[simp] theorem State.writeReg_pc : (s.writeReg i v).pc = s.pc := by unfold State.writeReg; split <;> rfl
@[simp] theorem State.writeReg_mem : (s.writeReg i v).mem = s.mem := by unfold State.writeReg; split <;> rfl
@[simp] theorem State.writeReg_console : (s.writeReg i v).console = s.console := by
  unfold State.writeReg; split <;> rfl
@[simp] theorem State.writeReg_status : (s.writeReg i v).status = s.status := by
  unfold State.writeReg; split <;> rfl
@[simp] theorem State.writeReg_params : (s.writeReg i v).params = s.params := by
  unfold State.writeReg; split <;> rfl

/-! ### Which register is hard-wired depends on the parameters only -/

@[simp] theorem State.hardwired_setPc : (s.setPc t).hardwired i = s.hardwired i := rfl
@[simp] theorem State.hardwired_advance : s.advance.hardwired i = s.hardwired i := rfl
@[simp] theorem State.hardwired_consoleWrite : (s.consoleWrite bytes).hardwired i = s.hardwired i := rfl
@[simp] theorem State.hardwired_setMem : (s.setMem m).hardwired i = s.hardwired i := rfl
@[simp] theorem State.hardwired_setStatus : (s.setStatus st).hardwired i = s.hardwired i := rfl
@[simp] theorem State.hardwired_writeReg : (s.writeReg j v).hardwired i = s.hardwired i := by
  simp [State.hardwired]

/-! ### readReg -/

/-- Reading looks at the registers and the parameters only. -/
theorem State.readReg_congr {s t : State} (hx : t.x = s.x) (hp : t.params = s.params) (i : RegIdx) :
    t.readReg i = s.readReg i := by
  simp [State.readReg, State.hardwired, hx, hp]

@[simp] theorem State.readReg_setPc : (s.setPc t).readReg i = s.readReg i := rfl
@[simp] theorem State.readReg_advance : s.advance.readReg i = s.readReg i := rfl
@[simp] theorem State.readReg_consoleWrite : (s.consoleWrite bytes).readReg i = s.readReg i := rfl

@[simp] theorem State.readReg_setMem : (s.setMem m).readReg i = s.readReg i := rfl
@[simp] theorem State.readReg_setStatus : (s.setStatus st).readReg i = s.readReg i := rfl

theorem State.readReg_hardwired {s : State} {i : RegIdx} (h : s.hardwired i = true) : s.readReg i = 0 := by
  simp [State.readReg, h]

theorem State.writeReg_hardwired {s : State} {i : RegIdx} (h : s.hardwired i = true) (v : Word) :
    s.writeReg i v = s := by
  simp [State.writeReg, h]

/-- What a read gives after a write (R12). -/
theorem State.readReg_writeReg :
    (s.writeReg i v).readReg j = if j = i ∧ s.hardwired i = false then v else s.readReg j := by
  by_cases hi : s.hardwired i = true
  · simp [State.writeReg_hardwired hi, hi]
  · by_cases hj : j = i
    · subst hj
      rw [State.readReg, State.hardwired_writeReg]
      simp [State.writeReg, hi]
    · have hne : i.toNat ≠ j.toNat := fun h => hj (BitVec.eq_of_toNat_eq h.symm)
      simp [State.readReg, hj]
      simp [State.writeReg, hi, hne]

theorem State.readReg_writeReg_self {s : State} {i : RegIdx} (h : s.hardwired i = false) (v : Word) :
    (s.writeReg i v).readReg i = v := by
  simp [State.readReg_writeReg, h]

theorem State.readReg_writeReg_of_ne {i j : RegIdx} (h : j ≠ i) :
    (s.writeReg i v).readReg j = s.readReg j := by
  simp [State.readReg_writeReg, h]

end Sys2Proof.Machine
end

