-- ==== Sys2Proof/Laws/Boot.lean ====
section
/-! SUPPORT. What the host's loading changes: memory only, below MEM_SIZE only (70_reset_and_hazards.md R191). -/

namespace Sys2Proof.Machine

/-- Loading one byte replaces memory by a canonical, bounded one. -/
theorem loadByte_eq (s : State) (a : Nat) (v : Byte) : ∃ m, s.loadByte a v = s.setMem m ∧
    (s.mem.wf → m.wf) ∧ ((∀ c ∈ s.mem, c.1 < s.params.memSize) → ∀ c ∈ m, c.1 < s.params.memSize) := by
  unfold State.loadByte
  split
  · exact ⟨_, rfl, fun h => Memory.wf_writeByte h _ _, fun h => Memory.bounded_writeByte h ‹_› _⟩
  · exact ⟨s.mem, rfl, id, id⟩

theorem loadBytes_eq (s : State) (a : Nat) (vs : List Byte) : ∃ m, s.loadBytes a vs = s.setMem m ∧
    (s.mem.wf → m.wf) ∧ ((∀ c ∈ s.mem, c.1 < s.params.memSize) → ∀ c ∈ m, c.1 < s.params.memSize) := by
  induction vs generalizing s a with
  | nil => exact ⟨s.mem, rfl, id, id⟩
  | cons v vs ih =>
    obtain ⟨m, hm, hw, hb⟩ := loadByte_eq s a v
    obtain ⟨m', hm', hw', hb'⟩ := ih (s.loadByte a v) (a + 1)
    refine ⟨m', ?_, ?_, ?_⟩
    · rw [State.loadBytes, hm', hm]; rfl
    · rw [hm] at hw'; exact fun h => hw' (hw h)
    · rw [hm] at hb'; exact fun h => hb' (hb h)

theorem loadWords_eq (s : State) (a : Nat) (ws : List Word) : ∃ m, s.loadWords a ws = s.setMem m ∧
    (s.mem.wf → m.wf) ∧ ((∀ c ∈ s.mem, c.1 < s.params.memSize) → ∀ c ∈ m, c.1 < s.params.memSize) := by
  induction ws generalizing s a with
  | nil => exact ⟨s.mem, rfl, id, id⟩
  | cons w ws ih =>
    obtain ⟨m, hm, hw, hb⟩ := loadBytes_eq s a [byteOf w 0, byteOf w 1, byteOf w 2, byteOf w 3]
    obtain ⟨m', hm', hw', hb'⟩ := ih (s.loadBytes a [byteOf w 0, byteOf w 1, byteOf w 2, byteOf w 3]) (a + 4)
    refine ⟨m', ?_, ?_, ?_⟩
    · rw [State.loadWords, hm', hm]; rfl
    · rw [hm] at hw'; exact fun h => hw' (hw h)
    · rw [hm] at hb'; exact fun h => hb' (hb h)

/-- The bytes after loading inside memory. -/
theorem readByte_loadBytes {s : State} (h : s.mem.wf) {a : Nat} {vs : List Byte}
    (hb : a + vs.length ≤ s.params.memSize) (b : Nat) :
    (s.loadBytes a vs).mem.readByte b =
      if hin : a ≤ b ∧ b < a + vs.length then vs[b - a] else s.mem.readByte b := by
  induction vs generalizing s a with
  | nil => rw [dif_neg (by simp)]; rfl
  | cons v vs ih =>
    simp only [List.length_cons] at hb
    have he : s.loadByte a v = s.setMem (s.mem.writeByte a v) := by
      rw [State.loadByte, if_pos (by omega)]
    rw [State.loadBytes, he, ih (Memory.wf_writeByte h a v) (by simp; omega)]
    simp only [State.setMem_mem, Memory.readByte_writeByte h]
    grind

/-- The bytes after loading words inside memory. -/
theorem readByte_loadWords {s : State} (h : s.mem.wf) {a : Nat} {ws : List Word}
    (hb : a + 4 * ws.length ≤ s.params.memSize) (b : Nat) :
    (s.loadWords a ws).mem.readByte b =
      if hin : a ≤ b ∧ b < a + 4 * ws.length then byteOf (ws[(b - a) / 4]'(by omega)) ((b - a) % 4)
      else s.mem.readByte b := by
  induction ws generalizing s a with
  | nil => rw [dif_neg (by simp)]; rfl
  | cons w ws ih =>
    simp only [List.length_cons] at hb
    obtain ⟨m, hm, hw, -⟩ := loadBytes_eq s a [byteOf w 0, byteOf w 1, byteOf w 2, byteOf w 3]
    have hr := readByte_loadBytes (s := s) h (a := a)
      (vs := [byteOf w 0, byteOf w 1, byteOf w 2, byteOf w 3]) (by simp; omega)
    rw [hm] at hr
    rw [State.loadWords, hm, ih (s := s.setMem m) (hw h) (by simpa using (by omega))]
    by_cases h1 : a ≤ b ∧ b < a + 4
    · obtain ⟨k, rfl⟩ := Nat.exists_eq_add_of_le h1.1
      have hk : k < 4 := by omega
      rw [dif_neg (by omega), dif_pos (by simp; omega), hr, dif_pos (by simp; omega)]
      simp
      interval_cases k <;> simp
    · rw [hr]
      by_cases h2 : a + 4 ≤ b ∧ b < a + 4 + 4 * ws.length
      · rw [dif_pos h2, dif_pos (by simp; omega)]
        simp only [show (b - a) / 4 = (b - (a + 4)) / 4 + 1 by omega,
          show (b - a) % 4 = (b - (a + 4)) % 4 by omega, List.getElem_cons_succ]
      · rw [dif_neg h2, dif_neg (by simp; omega), dif_neg (by simp; omega)]

end Sys2Proof.Machine
end

