-- ==== Sys2Proof/Laws/Operands.lean ====
section
/-! SUPPORT. The bits of the reconstructed operands (40_decoder.md R80; 30_encoding.md R61 to R65). -/

namespace Sys2Proof.Machine

/-- R80: below n the field's own bits, from n on its sign bit. -/
theorem getLsbD_sextShift (field : Word) {n i : Nat} (h1 : 1 ≤ n) (h32 : n ≤ 32) (hi : i < 32) :
    (sextShift field n).getLsbD i = if i < n then field.getLsbD i else field.getLsbD (n - 1) := by
  unfold sextShift; grind

/-- R80: the low n bits read as a two's-complement number. -/
theorem sextShift_eq (field : Word) {n : Nat} (h1 : 1 ≤ n) (h32 : n ≤ 32) :
    sextShift field n = (field.setWidth n).signExtend 32 := by
  ext i hi
  rw [← BitVec.getLsbD_eq_getElem, getLsbD_sextShift field h1 h32 hi]
  grind

/-- The range of an n-bit two's-complement number. -/
theorem toInt_sextShift_bounds (field : Word) {n : Nat} (h1 : 1 ≤ n) (h32 : n ≤ 32) :
    -(2 ^ (n - 1) : Int) ≤ (sextShift field n).toInt ∧ (sextShift field n).toInt < 2 ^ (n - 1) := by
  rw [sextShift_eq field h1 h32, BitVec.toInt_signExtend_of_le h32]
  exact ⟨BitVec.le_toInt _, BitVec.toInt_lt⟩

/-- A word in the range of n bits is its own extension. -/
theorem sextShift_of_bounds {v : Word} {n : Nat} (h1 : 1 ≤ n) (h32 : n ≤ 32)
    (hl : -(2 ^ (n - 1) : Int) ≤ v.toInt) (hh : v.toInt < 2 ^ (n - 1)) : sextShift v n = v := by
  rw [sextShift_eq _ h1 h32]
  apply BitVec.eq_of_toInt_eq
  rw [BitVec.toInt_signExtend_of_le h32, BitVec.toInt_setWidth]
  have h : ((v.toNat : Int)).bmod (2 ^ n) = (v.toInt).bmod (2 ^ n) := by
    rw [BitVec.toInt_eq_toNat_bmod]
    exact (Int.bmod_bmod_of_dvd (Nat.pow_dvd_pow 2 h32)).symm
  rw [h]
  obtain ⟨k, rfl⟩ : ∃ k, n = k + 1 := ⟨n - 1, by omega⟩
  simp only [Nat.add_one_sub_one] at hl hh
  exact Int.bmod_eq_of_le (by rw [Nat.pow_succ]; push_cast; omega) (by rw [Nat.pow_succ]; push_cast; omega)

/-- Bit 0 and evenness. -/
theorem getLsbD_zero_iff (v : Word) : v.getLsbD 0 = false ↔ v.toNat % 2 = 0 := by
  change v.toNat.testBit 0 = false ↔ _
  simp [Nat.testBit_zero]

/-- The bits of the store offset by field (30_encoding.md R62). -/
theorem getLsbD_storeOffset (lo : BitVec 5) (hi : BitVec 7) {i : Nat} (h : i < 32) :
    (storeOffset lo hi).getLsbD i =
      if i < 5 then lo.getLsbD i else if i < 12 then hi.getLsbD (i - 5) else hi.getLsbD 6 := by
  rw [storeOffset, getLsbD_sextShift _ (by omega) (by omega) h]
  simp only [BitVec.getLsbD_setWidth, BitVec.getLsbD_append]
  interval_cases i <;> simp

/-- The bits of the branch offset by field (R63). -/
theorem getLsbD_branchOffset (lo : BitVec 5) (hi : BitVec 7) {i : Nat} (h : i < 32) :
    (branchOffset lo hi).getLsbD i =
      if i = 0 then false else if i < 5 then lo.getLsbD i else if i < 11 then hi.getLsbD (i - 5)
      else if i = 11 then lo.getLsbD 0 else hi.getLsbD 6 := by
  rw [branchOffset, getLsbD_sextShift _ (by omega) (by omega) h]
  simp only [BitVec.getLsbD_setWidth, BitVec.getLsbD_append, BitVec.getLsbD_extractLsb',
    BitVec.getLsbD_ofNat]
  interval_cases i <;> simp

/-- The bits of the jump offset by field (R64). -/
theorem getLsbD_jumpOffset (e : BitVec 20) {i : Nat} (h : i < 32) :
    (jumpOffset e).getLsbD i =
      if i = 0 then false else if i < 11 then e.getLsbD (i + 8) else if i = 11 then e.getLsbD 8
      else if i < 20 then e.getLsbD (i - 12) else e.getLsbD 19 := by
  rw [jumpOffset, getLsbD_sextShift _ (by omega) (by omega) h]
  simp only [BitVec.getLsbD_setWidth, BitVec.getLsbD_append, BitVec.getLsbD_extractLsb',
    BitVec.getLsbD_ofNat]
  interval_cases i <;> simp

theorem sext12_eq_signExtend (imm : BitVec 12) : sext12 imm = imm.signExtend 32 := by
  unfold sext12 sextShift; ext i hi; grind

theorem storeOffset_eq_signExtend (immLo : BitVec 5) (immHi : BitVec 7) :
    storeOffset immLo immHi = (immHi ++ immLo : BitVec 12).signExtend 32 :=
  sext12_eq_signExtend _

@[simp] theorem toInt_sext12 (imm : BitVec 12) : (sext12 imm).toInt = imm.toInt := by
  rw [sext12_eq_signExtend]; exact BitVec.toInt_signExtend_of_le (by decide)

@[simp] theorem toNat_shamt (imm : BitVec 12) : (shamt imm).toNat = imm.toNat % 32 := by
  simp [shamt, BitVec.extractLsb'_toNat]; omega

end Sys2Proof.Machine
end

