-- ==== Sys2Proof/Laws/Exec.lean ====
section
/-! SUPPORT. What each shared operation can do, and from that what one instruction can do (`exec_effect`):
later proofs cite these and do not unfold the meanings. -/

namespace Sys2Proof.Machine

/-! ### The shared operations -/

@[simp] theorem writeBack_eq (rd : RegIdx) (v : Word) (s : State) :
    writeBack rd v s = .next (s.writeReg rd v).advance := rfl

@[simp] theorem raise_eq (kind : ErrorKind) (info : Word) (s : State) :
    raise kind info s = .next (s.setStatus (.fatal kind info)) := rfl

@[simp] theorem halt_eq (code : Word) (s : State) :
    halt code s = .next (s.setStatus (.halted code)) := rfl

@[simp] theorem print_eq (bytes : List Byte) (s : State) :
    print bytes s = .next (s.consoleWrite bytes).advance := rfl

theorem inBounds_iff (s : State) (a : Word) (w : Width) :
    s.inBounds a w = true ↔ a.toNat + widthBytes w ≤ s.params.memSize := by
  simp [State.inBounds]

theorem memRead_of_inBounds {s : State} {a : Word} {w : Width} (h : s.inBounds a w = true) :
    s.memRead a w = some (s.mem.readLE a.toNat (widthBytes w)) := by
  simp [State.memRead, h]

theorem memRead_of_not_inBounds {s : State} {a : Word} {w : Width} (h : s.inBounds a w = false) :
    s.memRead a w = none := by
  simp [State.memRead, h]

theorem execLoad_of_inBounds {w : Width} {rs1 : RegIdx} {imm : BitVec 12} {s : State}
    (h : s.inBounds (s.loadAddress rs1 imm) w = true) (rd : RegIdx) :
    execLoad w rd rs1 imm s =
      .next (s.writeReg rd (s.mem.readLE (s.loadAddress rs1 imm).toNat (widthBytes w))).advance := by
  simp [execLoad, memRead_of_inBounds h]

theorem execLoad_of_not_inBounds {w : Width} {rs1 : RegIdx} {imm : BitVec 12} {s : State}
    (h : s.inBounds (s.loadAddress rs1 imm) w = false) (rd : RegIdx) :
    execLoad w rd rs1 imm s =
      .next (s.setStatus (.fatal .outOfBounds (s.loadAddress rs1 imm))) := by
  simp [execLoad, memRead_of_not_inBounds h]

theorem execStore_of_inBounds {w : Width} {rs1 : RegIdx} {immLo : BitVec 5} {immHi : BitVec 7} {s : State}
    (h : s.inBounds (s.storeAddress rs1 immLo immHi) w = true) (rs2 : RegIdx) :
    execStore w rs1 rs2 immLo immHi s =
      .next (s.setMem (s.mem.writeLE (s.storeAddress rs1 immLo immHi).toNat (widthBytes w)
        (s.readReg rs2))).advance := by
  simp [execStore, State.memWrite, h]

theorem execStore_of_not_inBounds {w : Width} {rs1 : RegIdx} {immLo : BitVec 5} {immHi : BitVec 7}
    {s : State} (h : s.inBounds (s.storeAddress rs1 immLo immHi) w = false) (rs2 : RegIdx) :
    execStore w rs1 rs2 immLo immHi s =
      .next (s.setStatus (.fatal .outOfBounds (s.storeAddress rs1 immLo immHi))) := by
  simp [execStore, State.memWrite, h]

theorem execDivision_of_corner {s : State} {rs1 rs2 : RegIdx} (hp : s.params.divCorner = .fatal)
    (hc : divCornerCase (s.readReg rs1) (s.readReg rs2) = true) (op : AluOp) (word : Word) (rd : RegIdx) :
    execDivision op word rd rs1 rs2 s = .next (s.setStatus (.fatal .arithmeticFault word)) := by
  simp [execDivision, hp, hc]

theorem execDivision_of_regular {s : State} {rs1 rs2 : RegIdx}
    (h : ¬(s.params.divCorner = .fatal ∧ divCornerCase (s.readReg rs1) (s.readReg rs2) = true))
    (op : AluOp) (word : Word) (rd : RegIdx) :
    execDivision op word rd rs1 rs2 s = execReg op rd rs1 rs2 s := by
  rw [execDivision, if_neg h]

theorem divCornerCase_iff (a b : Word) :
    divCornerCase a b = true ↔ b = 0 ∨ (a = 0x80000000#32 ∧ b = 0xFFFFFFFF#32) := by
  simp [divCornerCase]

/-! ### What one instruction can do -/

/-- Everything executing an instruction can do to the state (the rules of files 41 to 45): one write of
its destination register, a move of pc, one store, one console output, the halt, or one error. -/
inductive Effect (i : Instr) (s : State) : State → Prop
  | writes (rd : RegIdx) (v : Word) (hd : destOf i = some rd) (ho : offsetOf i = none) :
      Effect i s (s.writeReg rd v).advance
  | links (rd : RegIdx) (imm : BitVec 20) (hi : i = .jal rd imm) :
      Effect i s ((s.writeReg rd (s.pc + 4)).setPc (s.pc + jumpOffset imm))
  | branches (off : Word) (hd : destOf i = none) (ho : offsetOf i = some off) :
      Effect i s (s.setPc (s.pc + off))
  | falls (off : Word) (hd : destOf i = none) (ho : offsetOf i = some off) : Effect i s s.advance
  | stores (a : Word) (w : Width) (v : Word) (hs : storeOf s i = some (a, w, v))
      (hb : s.inBounds a w = true) :
      Effect i s (s.setMem (s.mem.writeLE a.toNat (widthBytes w) v)).advance
  | prints (bytes : List Byte) (he : isEcall i = true)
      (hn : s.readReg regA0 = 1 ∨ s.readReg regA0 = 4 ∨ s.readReg regA0 = 11) :
      Effect i s (s.consoleWrite bytes).advance
  | halts (he : isEcall i = true) (hn : s.readReg regA0 = 10) :
      Effect i s (s.setStatus (.halted 0))
  | leavesMemory (a : Word) (w : Width) (ha : accessOf s i = some (a, w)) (hb : s.inBounds a w = false) :
      Effect i s (s.setStatus (.fatal .outOfBounds a))
  | dividesBadly (a b : Word) (hd : divisionOf s i = some (a, b)) (hp : s.params.divCorner = .fatal)
      (hc : divCornerCase a b = true) :
      Effect i s (s.setStatus (.fatal .arithmeticFault (encode i)))
  | callsUnknown (he : isEcall i = true)
      (hn : s.readReg regA0 ≠ 1 ∧ s.readReg regA0 ≠ 4 ∧ s.readReg regA0 ≠ 10 ∧ s.readReg regA0 ≠ 11) :
      Effect i s (s.setStatus (.fatal .illegalSyscall (s.readReg regA0)))

theorem execBranch_effect (cond : Cond) (rs1 rs2 : RegIdx) (immLo : BitVec 5) (immHi : BitVec 7)
    (s : State) {i : Instr} (hd : destOf i = none) (ho : offsetOf i = some (branchOffset immLo immHi)) :
    ∃ t, execBranch cond rs1 rs2 immLo immHi s = .next t ∧ Effect i s t := by
  unfold execBranch
  split
  · exact ⟨_, rfl, .branches _ hd ho⟩
  · exact ⟨_, rfl, .falls _ hd ho⟩

theorem execLoad_effect (w : Width) (rd rs1 : RegIdx) (imm : BitVec 12) (s : State) {i : Instr}
    (hd : destOf i = some rd) (ho : offsetOf i = none)
    (ha : accessOf s i = some (s.loadAddress rs1 imm, w)) :
    ∃ t, execLoad w rd rs1 imm s = .next t ∧ Effect i s t := by
  rcases hb : s.inBounds (s.loadAddress rs1 imm) w
  · exact ⟨_, execLoad_of_not_inBounds hb rd, .leavesMemory _ _ ha hb⟩
  · exact ⟨_, execLoad_of_inBounds hb rd, .writes _ _ hd ho⟩

theorem execStore_effect (w : Width) (rs1 rs2 : RegIdx) (immLo : BitVec 5) (immHi : BitVec 7) (s : State)
    {i : Instr} (hs : storeOf s i = some (s.storeAddress rs1 immLo immHi, w, s.readReg rs2))
    (ha : accessOf s i = some (s.storeAddress rs1 immLo immHi, w)) :
    ∃ t, execStore w rs1 rs2 immLo immHi s = .next t ∧ Effect i s t := by
  rcases hb : s.inBounds (s.storeAddress rs1 immLo immHi) w
  · exact ⟨_, execStore_of_not_inBounds hb rs2, .leavesMemory _ _ ha hb⟩
  · exact ⟨_, execStore_of_inBounds hb rs2, .stores _ _ _ hs hb⟩

theorem execDivision_effect (op : AluOp) (rd rs1 rs2 : RegIdx) (s : State) {i : Instr}
    (hd : destOf i = some rd) (ho : offsetOf i = none)
    (ha : divisionOf s i = some (s.readReg rs1, s.readReg rs2)) :
    ∃ t, execDivision op (encode i) rd rs1 rs2 s = .next t ∧ Effect i s t := by
  by_cases h : s.params.divCorner = .fatal ∧ divCornerCase (s.readReg rs1) (s.readReg rs2) = true
  · exact ⟨_, execDivision_of_corner h.1 h.2 op _ rd, .dividesBadly _ _ ha h.1 h.2⟩
  · exact ⟨_, execDivision_of_regular h op _ rd, .writes _ _ hd ho⟩

theorem execEcall_effect (rd : RegIdx) (funct3 : BitVec 3) (rs1 : RegIdx) (imm : BitVec 12) (s : State) :
    ∃ t, execEcall rd funct3 rs1 imm s = .next t ∧ Effect (.ecall rd funct3 rs1 imm) s t := by
  unfold execEcall syscall
  split
  · exact ⟨_, rfl, .prints _ rfl (.inl ‹_›)⟩
  split
  · exact ⟨_, rfl, .prints _ rfl (.inr (.inl ‹_›))⟩
  split
  · exact ⟨_, rfl, .halts rfl ‹_›⟩
  split
  · exact ⟨_, rfl, .prints _ rfl (.inr (.inr ‹_›))⟩
  · exact ⟨_, rfl, .callsUnknown rfl ⟨‹_›, ‹_›, ‹_›, ‹_›⟩⟩

/-- Executing an instruction always answers a next state, and the state it answers is one of the
effects. -/
theorem exec_effect (i : Instr) (s : State) : ∃ t, exec i s = .next t ∧ Effect i s t := by
  cases i with
  | div rd rs1 rs2 => exact execDivision_effect .div rd rs1 rs2 s rfl rfl rfl
  | rem rd rs1 rs2 => exact execDivision_effect .rem rd rs1 rs2 s rfl rfl rfl
  | beq rs1 rs2 lo hi => exact execBranch_effect .eq rs1 rs2 lo hi s rfl rfl
  | bne rs1 rs2 lo hi => exact execBranch_effect .ne rs1 rs2 lo hi s rfl rfl
  | jal rd imm => exact ⟨_, rfl, .links rd imm rfl⟩
  | lb rd rs1 imm => exact execLoad_effect .byte rd rs1 imm s rfl rfl rfl
  | lh rd rs1 imm => exact execLoad_effect .half rd rs1 imm s rfl rfl rfl
  | lw rd rs1 imm => exact execLoad_effect .word rd rs1 imm s rfl rfl rfl
  | sb rs1 rs2 lo hi => exact execStore_effect .byte rs1 rs2 lo hi s rfl rfl
  | sh rs1 rs2 lo hi => exact execStore_effect .half rs1 rs2 lo hi s rfl rfl
  | sw rs1 rs2 lo hi => exact execStore_effect .word rs1 rs2 lo hi s rfl rfl
  | ecall rd f3 rs1 imm => exact execEcall_effect rd f3 rs1 imm s
  | _ => exact ⟨_, rfl, .writes _ _ rfl rfl⟩

end Sys2Proof.Machine
end

