-- ==== Sys2Proof/Laws/PerInstr.lean ====
section
/-! SUPPORT. For every instruction, that its encoding is a word of its own row of the opcode table:
`(encode i & mask) = match`. The mask and match are copied from spec/opcode_table.json, row by row. -/

namespace Sys2Proof.Laws.EncodesItsRow

/-- The mask and the match of the instruction's row (30_encoding.md R59, spec/opcode_table.json). -/
def row : Instr → Word × Word
  | .add _ _ _ => (0xFE00707F#32, 0x00000033#32)
  | .sub _ _ _ => (0xFE00707F#32, 0x40000033#32)
  | .mul _ _ _ => (0xFE00707F#32, 0x02000033#32)
  | .sll _ _ _ => (0xFE00707F#32, 0x00001033#32)
  | .slt _ _ _ => (0xFE00707F#32, 0x00002033#32)
  | .xor _ _ _ => (0xFE00707F#32, 0x00004033#32)
  | .div _ _ _ => (0xFE00707F#32, 0x02004033#32)
  | .srl _ _ _ => (0xFE00707F#32, 0x00005033#32)
  | .sra _ _ _ => (0xFE00707F#32, 0x40005033#32)
  | .or _ _ _ => (0xFE00707F#32, 0x00006033#32)
  | .rem _ _ _ => (0xFE00707F#32, 0x02006033#32)
  | .and _ _ _ => (0xFE00707F#32, 0x00007033#32)
  | .addi _ _ _ => (0x0000707F#32, 0x00000013#32)
  | .slli _ _ _ => (0x0000707F#32, 0x00001013#32)
  | .slti _ _ _ => (0x0000707F#32, 0x00002013#32)
  | .xori _ _ _ => (0x0000707F#32, 0x00004013#32)
  | .srli _ _ _ => (0x4000707F#32, 0x00005013#32)
  | .srai _ _ _ => (0x4000707F#32, 0x40005013#32)
  | .ori _ _ _ => (0x0000707F#32, 0x00006013#32)
  | .andi _ _ _ => (0x0000707F#32, 0x00007013#32)
  | .lui _ _ => (0x0000007F#32, 0x00000037#32)
  | .beq _ _ _ _ => (0x0000707F#32, 0x00000063#32)
  | .bne _ _ _ _ => (0x0000707F#32, 0x00001063#32)
  | .jal _ _ => (0x0000007F#32, 0x0000006F#32)
  | .lb _ _ _ => (0x0000707F#32, 0x00000003#32)
  | .lh _ _ _ => (0x0000707F#32, 0x00001003#32)
  | .lw _ _ _ => (0x0000707F#32, 0x00002003#32)
  | .sb _ _ _ _ => (0x0000707F#32, 0x00000023#32)
  | .sh _ _ _ _ => (0x0000707F#32, 0x00001023#32)
  | .sw _ _ _ _ => (0x0000707F#32, 0x00002023#32)
  | .ecall _ _ _ _ => (0x0000007F#32, 0x00000073#32)

/-- The encoding of a well-formed instruction matches its row. -/
def Statement (i : Instr) : Prop := i.wellFormed = true → encode i &&& (row i).1 = (row i).2

/-- The row's immediate bit 10, where it is a selector. -/
theorem and_bit10 {imm : BitVec 12} {b : Bool} (h : imm.getLsbD 10 = b) :
    imm &&& 0x400 = if b then 0x400 else 0 := by
  refine BitVec.eq_of_getLsbD_eq fun i hi => ?_
  cases b <;> interval_cases i <;> simp_all

theorem add (rd rs1 rs2 : RegIdx) : Statement (.add rd rs1 rs2) :=
  fun _ => (wordR_and_mask ..).trans rfl
theorem sub (rd rs1 rs2 : RegIdx) : Statement (.sub rd rs1 rs2) :=
  fun _ => (wordR_and_mask ..).trans rfl
theorem mul (rd rs1 rs2 : RegIdx) : Statement (.mul rd rs1 rs2) :=
  fun _ => (wordR_and_mask ..).trans rfl
theorem sll (rd rs1 rs2 : RegIdx) : Statement (.sll rd rs1 rs2) :=
  fun _ => (wordR_and_mask ..).trans rfl
theorem slt (rd rs1 rs2 : RegIdx) : Statement (.slt rd rs1 rs2) :=
  fun _ => (wordR_and_mask ..).trans rfl
theorem xor (rd rs1 rs2 : RegIdx) : Statement (.xor rd rs1 rs2) :=
  fun _ => (wordR_and_mask ..).trans rfl
theorem div (rd rs1 rs2 : RegIdx) : Statement (.div rd rs1 rs2) :=
  fun _ => (wordR_and_mask ..).trans rfl
theorem srl (rd rs1 rs2 : RegIdx) : Statement (.srl rd rs1 rs2) :=
  fun _ => (wordR_and_mask ..).trans rfl
theorem sra (rd rs1 rs2 : RegIdx) : Statement (.sra rd rs1 rs2) :=
  fun _ => (wordR_and_mask ..).trans rfl
theorem or (rd rs1 rs2 : RegIdx) : Statement (.or rd rs1 rs2) :=
  fun _ => (wordR_and_mask ..).trans rfl
theorem rem (rd rs1 rs2 : RegIdx) : Statement (.rem rd rs1 rs2) :=
  fun _ => (wordR_and_mask ..).trans rfl
theorem and (rd rs1 rs2 : RegIdx) : Statement (.and rd rs1 rs2) :=
  fun _ => (wordR_and_mask ..).trans rfl
theorem addi (rd rs1 : RegIdx) (imm : BitVec 12) : Statement (.addi rd rs1 imm) :=
  fun _ => (wordI_and_mask ..).trans rfl
theorem slli (rd rs1 : RegIdx) (imm : BitVec 12) : Statement (.slli rd rs1 imm) :=
  fun _ => (wordI_and_mask ..).trans rfl
theorem slti (rd rs1 : RegIdx) (imm : BitVec 12) : Statement (.slti rd rs1 imm) :=
  fun _ => (wordI_and_mask ..).trans rfl
theorem xori (rd rs1 : RegIdx) (imm : BitVec 12) : Statement (.xori rd rs1 imm) :=
  fun _ => (wordI_and_mask ..).trans rfl
theorem srli (rd rs1 : RegIdx) (imm : BitVec 12) : Statement (.srli rd rs1 imm) := by
  intro h
  have h10 : imm.getLsbD 10 = false := by simpa [Instr.wellFormed] using h
  change wordI imm rs1 5#3 rd 0x13#7 &&& 0x4000707F#32 = _
  rw [wordI_and_mask_shift, and_bit10 h10]; rfl
theorem srai (rd rs1 : RegIdx) (imm : BitVec 12) : Statement (.srai rd rs1 imm) := by
  intro h
  have h10 : imm.getLsbD 10 = true := by simpa [Instr.wellFormed] using h
  change wordI imm rs1 5#3 rd 0x13#7 &&& 0x4000707F#32 = _
  rw [wordI_and_mask_shift, and_bit10 h10]; rfl
theorem ori (rd rs1 : RegIdx) (imm : BitVec 12) : Statement (.ori rd rs1 imm) :=
  fun _ => (wordI_and_mask ..).trans rfl
theorem andi (rd rs1 : RegIdx) (imm : BitVec 12) : Statement (.andi rd rs1 imm) :=
  fun _ => (wordI_and_mask ..).trans rfl
theorem lui (rd : RegIdx) (imm : BitVec 20) : Statement (.lui rd imm) :=
  fun _ => (wordU_and_mask ..).trans rfl
theorem beq (rs1 rs2 : RegIdx) (immLo : BitVec 5) (immHi : BitVec 7) : Statement (.beq rs1 rs2 immLo immHi) :=
  fun _ => (wordS_and_mask ..).trans rfl
theorem bne (rs1 rs2 : RegIdx) (immLo : BitVec 5) (immHi : BitVec 7) : Statement (.bne rs1 rs2 immLo immHi) :=
  fun _ => (wordS_and_mask ..).trans rfl
theorem jal (rd : RegIdx) (imm : BitVec 20) : Statement (.jal rd imm) :=
  fun _ => (wordU_and_mask ..).trans rfl
theorem lb (rd rs1 : RegIdx) (imm : BitVec 12) : Statement (.lb rd rs1 imm) :=
  fun _ => (wordI_and_mask ..).trans rfl
theorem lh (rd rs1 : RegIdx) (imm : BitVec 12) : Statement (.lh rd rs1 imm) :=
  fun _ => (wordI_and_mask ..).trans rfl
theorem lw (rd rs1 : RegIdx) (imm : BitVec 12) : Statement (.lw rd rs1 imm) :=
  fun _ => (wordI_and_mask ..).trans rfl
theorem sb (rs1 rs2 : RegIdx) (immLo : BitVec 5) (immHi : BitVec 7) : Statement (.sb rs1 rs2 immLo immHi) :=
  fun _ => (wordS_and_mask ..).trans rfl
theorem sh (rs1 rs2 : RegIdx) (immLo : BitVec 5) (immHi : BitVec 7) : Statement (.sh rs1 rs2 immLo immHi) :=
  fun _ => (wordS_and_mask ..).trans rfl
theorem sw (rs1 rs2 : RegIdx) (immLo : BitVec 5) (immHi : BitVec 7) : Statement (.sw rs1 rs2 immLo immHi) :=
  fun _ => (wordS_and_mask ..).trans rfl
theorem ecall (rd : RegIdx) (funct3 : BitVec 3) (rs1 : RegIdx) (imm : BitVec 12) : Statement (.ecall rd funct3 rs1 imm) :=
  fun _ => (wordI_and_mask_U ..).trans rfl

end Sys2Proof.Laws.EncodesItsRow
end

