-- ==== Sys2Proof/Laws/Step.lean ====
section
/-! SUPPORT. What fetching and a step can do (20_memory.md R41, R42; 70_reset_and_hazards.md R192). -/

namespace Sys2Proof.Machine

/-- The fetch's test pc[1:0] = 0 says that pc is a multiple of 4. -/
theorem aligned_iff (pc : Word) : pc.extractLsb' 0 2 = 0 ↔ pc.toNat % 4 = 0 := by
  rw [← BitVec.toNat_inj]; simp [BitVec.extractLsb'_toNat]

theorem fetch_of_misaligned {s : State} (h : s.pc.toNat % 4 ≠ 0) : s.fetch = .error .misalignedFetch := by
  rw [State.fetch, if_neg (fun h' => h ((aligned_iff _).1 h'))]

theorem fetch_of_outOfBounds {s : State} (h : s.pc.toNat % 4 = 0) (hb : s.params.memSize < s.pc.toNat + 4) :
    s.fetch = .error .outOfBounds := by
  have : s.inBounds s.pc .word = false := by
    rw [State.inBounds]; exact decide_eq_false (by simp [widthBytes]; omega)
  rw [State.fetch, if_pos ((aligned_iff _).2 h), memRead_of_not_inBounds this]

theorem fetch_of_inBounds {s : State} (h : s.pc.toNat % 4 = 0) (hb : s.pc.toNat + 4 ≤ s.params.memSize) :
    s.fetch = .ok (s.mem.readLE s.pc.toNat 4) := by
  have : s.inBounds s.pc .word = true := by rw [State.inBounds]; exact decide_eq_true hb
  rw [State.fetch, if_pos ((aligned_iff _).2 h), memRead_of_inBounds this]; rfl

/-- The word read where the four bytes are those of `w`. -/
theorem readLE_of_bytes {m : Memory} {a : Nat} {w : Word} (h : ∀ k < 4, m.readByte (a + k) = byteOf w k) :
    m.readLE a 4 = w :=
  word_ext fun k hk => by rw [Memory.byteOf_readLE _ _ _ _ hk, if_pos hk, h k hk]

/-- Byte k of a word as a number. -/
theorem toNat_byteOf (w : Word) (k : Nat) : (byteOf w k).toNat = w.toNat / 256 ^ k % 256 := by
  rw [byteOf, BitVec.extractLsb'_toNat, Nat.shiftRight_eq_div_pow, Nat.pow_mul]

/-- A step exists only when the machine is Running, and is then the step of a running machine. -/
theorem step_next {s t : State} (h : step s = .next t) : s.status = .running ∧ stepRunning s = .next t := by
  unfold step at h
  split at h
  · exact ⟨‹_›, h⟩
  · cases h
  · cases h

theorem step_of_running {s : State} (h : s.status = .running) : step s = stepRunning s := by
  rw [step, h]

/-- The ways a step of a running machine can end: one of the four checks before execution fails, or the
instruction at pc is executed (60_exceptions.md R177, lines 1 to 4). -/
inductive StepCase (s : State) : State → Prop
  | misaligned (h : s.pc.toNat % 4 ≠ 0) : StepCase s (s.setStatus (.fatal .misalignedFetch s.pc))
  | outside (h : s.pc.toNat % 4 = 0) (hb : s.params.memSize < s.pc.toNat + 4) :
      StepCase s (s.setStatus (.fatal .outOfBounds s.pc))
  | badOpcode (w : Word) (h : s.pc.toNat % 4 = 0) (hb : s.pc.toNat + 4 ≤ s.params.memSize)
      (hw : s.mem.readLE s.pc.toNat 4 = w) (hr : readInstr w = .invalidOpcode w) :
      StepCase s (s.setStatus (.fatal .invalidOpcode w))
  | badInstruction (w : Word) (h : s.pc.toNat % 4 = 0) (hb : s.pc.toNat + 4 ≤ s.params.memSize)
      (hw : s.mem.readLE s.pc.toNat 4 = w) (hr : readInstr w = .invalidInstruction w) :
      StepCase s (s.setStatus (.fatal .invalidInstruction w))
  | executes (w : Word) (t : State) (h : s.pc.toNat % 4 = 0) (hb : s.pc.toNat + 4 ≤ s.params.memSize)
      (hw : s.mem.readLE s.pc.toNat 4 = w) (i : Instr) (hr : readInstr w = .instr i)
      (he : exec i s = .next t) (ht : Effect i s t) : StepCase s t

theorem stepRunning_case (s : State) : ∃ t, stepRunning s = .next t ∧ StepCase s t := by
  by_cases h : s.pc.toNat % 4 = 0
  · rcases Nat.lt_or_ge s.params.memSize (s.pc.toNat + 4) with hb | hb
    · exact ⟨_, by simp only [stepRunning, fetch_of_outOfBounds h hb]; rfl, .outside h hb⟩
    · simp only [stepRunning, fetch_of_inBounds h hb]
      split
      · obtain ⟨rfl, -⟩ := readInstr_eq_invalidOpcode ‹_›
        exact ⟨_, rfl, .badOpcode _ h hb rfl ‹_›⟩
      · obtain ⟨rfl, -⟩ := readInstr_eq_invalidInstruction ‹_›
        exact ⟨_, rfl, .badInstruction _ h hb rfl ‹_›⟩
      · obtain ⟨t, he, ht⟩ := exec_effect _ s
        exact ⟨t, he, .executes _ t h hb rfl _ ‹_› he ht⟩
  · exact ⟨_, by simp only [stepRunning, fetch_of_misaligned h]; rfl, .misaligned h⟩

/-- Everything a step that answers a next state can have done. -/
theorem step_case {s t : State} (h : step s = .next t) : s.status = .running ∧ StepCase s t := by
  obtain ⟨hr, h⟩ := step_next h
  obtain ⟨t', ht', hc⟩ := stepRunning_case s
  cases h.symm.trans ht'
  exact ⟨hr, hc⟩

/-- The step of a running machine whose pc is aligned and inside memory. -/
theorem step_of_fetch {s : State} (hr : s.status = .running) (h : s.pc.toNat % 4 = 0)
    (hb : s.pc.toNat + 4 ≤ s.params.memSize) :
    step s = match readInstr (s.mem.readLE s.pc.toNat 4) with
      | .invalidOpcode raw => raise .invalidOpcode raw s
      | .invalidInstruction raw => raise .invalidInstruction raw s
      | .instr i => exec i s := by
  rw [step_of_running hr, stepRunning, fetch_of_inBounds h hb] <;> rfl

/-! ### Runs -/

@[simp] theorem run_zero (s : State) : run 0 s = .next s := rfl

theorem run_succ (n : Nat) (s : State) : run (n + 1) s = match step s with
    | .next t => run n t
    | .fault r => .fault r
    | .refused r => .refused r := by
  refine (Host.Core.run.eq_2 core s n).trans ?_
  rw [show core.step s = step s from rfl]
  cases step s <;> rfl

/-- What holds of a state and is kept by every step holds after any number of steps. -/
theorem run_induction {P : State → Prop} (hstep : ∀ s t, P s → step s = .next t → P t) :
    ∀ (n : Nat) (s t : State), P s → run n s = .next t → P t
  | 0, s, t, hs, h => by cases h; exact hs
  | n + 1, s, t, hs, h => by
    rw [run_succ] at h
    split at h
    · exact run_induction hstep n _ t (hstep _ _ hs ‹_›) h
    · cases h
    · cases h

end Sys2Proof.Machine
end

