-- ==== Sys2Proof/Tests/Slice0.lean ====
section
/-! SUPPORT. Tests. Expected results are those of spec/95_test_vectors.md and of the examples in the rules;
they were not taken from the model. The last part gives, for every statement with hypotheses, a concrete
state and operands that meet them. -/

namespace Sys2Proof.Tests
open Sys2Proof Sys2Proof.Machine Sys2Proof.Claims

/-! ### Helpers -/

/-- The parameters of the test vectors: MEM_SIZE = 0x1000 (95_test_vectors.md, conventions). -/
def p0 : Params := ⟨0x1000, 0, true, .riscvM⟩

/-- A machine with one word at pc = 0x100 and some registers set. -/
def at100 (w : Word) (regs : List (RegIdx × Word)) (p : Params := p0) : State :=
  regs.foldl (fun s r => s.writeReg r.1 r.2) (((State.resetWith p).setPc 0x100).loadWords 0x100 [w])

/-- A register, pc and status of the next state. -/
def after (r : RegIdx) : Result → Option (Word × Word × Status)
  | .next t => some (t.readReg r, t.pc, t.status)
  | .fault _ => none
  | .refused _ => none

/-- n bytes of memory from a, pc and status of the next state. -/
def bytesAfter (a n : Nat) : Result → Option (List Byte × Word × Status)
  | .next t => some ((List.range' a n).map t.mem.readByte, t.pc, t.status)
  | .fault _ => none
  | .refused _ => none

/-- Console, pc and status of the next state. -/
def printed : Result → Option (List Byte × Word × Status)
  | .next t => some (t.console, t.pc, t.status)
  | .fault _ => none
  | .refused _ => none

/-! ### WellFormed: immediate bit 10 tells SRLI from SRAI -/

theorem test_srli_with_bit10_is_ill_formed : Instr.wellFormed (.srli 3 1 0x403) = false := by decide
theorem test_srai_without_bit10_is_ill_formed : Instr.wellFormed (.srai 3 1 0x003) = false := by decide

/-! ### Decoding, one word of the spec per constructor (95_test_vectors.md sections 2 to 6) -/

theorem test_decode_add : readInstr 0x002081B3 = .instr (.add 3 1 2) := by decide
theorem test_decode_sub : readInstr 0x402081B3 = .instr (.sub 3 1 2) := by decide
theorem test_decode_mul : readInstr 0x022081B3 = .instr (.mul 3 1 2) := by decide
theorem test_decode_sll : readInstr 0x002091B3 = .instr (.sll 3 1 2) := by decide
theorem test_decode_slt : readInstr 0x0020A1B3 = .instr (.slt 3 1 2) := by decide
theorem test_decode_xor : readInstr 0x0020C1B3 = .instr (.xor 3 1 2) := by decide
theorem test_decode_div : readInstr 0x0220C1B3 = .instr (.div 3 1 2) := by decide
theorem test_decode_srl : readInstr 0x0020D1B3 = .instr (.srl 3 1 2) := by decide
theorem test_decode_sra : readInstr 0x40C5D533 = .instr (.sra 10 11 12) := by decide
theorem test_decode_or : readInstr 0x0020E1B3 = .instr (.or 3 1 2) := by decide
theorem test_decode_rem : readInstr 0x0262E3B3 = .instr (.rem 7 5 6) := by decide
theorem test_decode_and : readInstr 0x0020F1B3 = .instr (.and 3 1 2) := by decide
theorem test_decode_addi : readInstr 0xFFF28293 = .instr (.addi 5 5 0xFFF) := by decide
theorem test_decode_slli : readInstr 0xFE309193 = .instr (.slli 3 1 0xFE3) := by decide
theorem test_decode_slti : readInstr 0x8000A193 = .instr (.slti 3 1 0x800) := by decide
theorem test_decode_xori : readInstr 0x7FF0C193 = .instr (.xori 3 1 0x7FF) := by decide
theorem test_decode_srli : readInstr 0x8030D193 = .instr (.srli 3 1 0x803) := by decide
theorem test_decode_srai : readInstr 0x41F0D193 = .instr (.srai 3 1 0x41F) := by decide
theorem test_decode_ori : readInstr 0x00B0E193 = .instr (.ori 3 1 0x00B) := by decide
theorem test_decode_andi : readInstr 0x0FF0F193 = .instr (.andi 3 1 0x0FF) := by decide
theorem test_decode_lui : readInstr 0xDEADC2B7 = .instr (.lui 5 0xDEADC) := by decide
theorem test_decode_beq : readInstr 0x7E208FE3 = .instr (.beq 1 2 0x1F 0x3F) := by decide
theorem test_decode_bne : readInstr 0xFE029CE3 = .instr (.bne 5 0 0x19 0x7F) := by decide
theorem test_decode_jal : readInstr 0x7FFFF0EF = .instr (.jal 1 0x7FFFF) := by decide
theorem test_decode_lb : readInstr 0x7FF08183 = .instr (.lb 3 1 0x7FF) := by decide
theorem test_decode_lh : readInstr 0x00131603 = .instr (.lh 12 6 0x001) := by decide
theorem test_decode_lw : readInstr 0xFFC0A183 = .instr (.lw 3 1 0xFFC) := by decide
theorem test_decode_sb : readInstr 0x005302A3 = .instr (.sb 6 5 0x05 0x00) := by decide
theorem test_decode_sh : readInstr 0xFE531F23 = .instr (.sh 6 5 0x1E 0x7F) := by decide
theorem test_decode_sw : readInstr 0xFE20AE23 = .instr (.sw 1 2 0x1C 0x7F) := by decide
theorem test_decode_ecall : readInstr 0xFFFFFFF3 = .instr (.ecall 31 7 31 0xFFF) := by decide

theorem test_decode_custom_opcode : readInstr 0x0000005B = .invalidOpcode 0x0000005B := by decide
theorem test_decode_unknown_funct7 : readInstr 0x0620C1B3 = .invalidInstruction 0x0620C1B3 := by decide
theorem test_decode_unknown_funct3 : readInstr 0x0000B183 = .invalidInstruction 0x0000B183 := by decide

/-! ### Operand forms (95_test_vectors.md sections 2.1 and 2.3 to 2.5) -/

theorem test_signExtend_ignores_high_bits : signExtend 0x1800 12 = some 0xFFFFF800 := by decide
theorem test_signExtend_one_bit : signExtend 0x1 1 = some 0xFFFFFFFF := by decide
theorem test_storeOffset : storeOffset 0x1E 0x7F = 0xFFFFFFFE := by decide
theorem test_branchOffset : branchOffset 0x14 0x2A = 1364 := by decide
theorem test_jumpOffset : jumpOffset 0x2ABAA = 699050 := by decide

/-! ### One step each: register-register (section 3), register-immediate and LUI (section 4) -/

theorem test_add_wraps :
    after 3 (step (at100 0x002081B3 [(1, 0x7FFFFFFF), (2, 1)])) = some (0x80000000, 0x104, .running) := by decide
theorem test_add_source_is_destination :
    after 1 (step (at100 0x001080B3 [(1, 0x40000001)])) = some (0x80000002, 0x104, .running) := by decide
theorem test_sub_borrows :
    after 3 (step (at100 0x402081B3 [(1, 0), (2, 1)])) = some (0xFFFFFFFF, 0x104, .running) := by decide
theorem test_mul_keeps_the_low_word :
    after 3 (step (at100 0x022081B3 [(1, 0x12345678), (2, 0x9ABCDEF0)])) = some (0x242D2080, 0x104, .running) := by decide
theorem test_sll_uses_low_five_bits :
    after 3 (step (at100 0x002091B3 [(1, 0x0000FFFF), (2, 0xFFFFFFE4)])) = some (0x000FFFF0, 0x104, .running) := by decide
theorem test_slt_is_signed :
    after 3 (step (at100 0x0020A1B3 [(1, 0xFFFFFFFF), (2, 0)])) = some (1, 0x104, .running) := by decide
theorem test_xor :
    after 3 (step (at100 0x0020C1B3 [(1, 0xF0F0F0F0), (2, 0xFF00FF00)])) = some (0x0FF00FF0, 0x104, .running) := by decide
theorem test_div_truncates :
    after 3 (step (at100 0x0220C1B3 [(1, 0xFFFFFFF9), (2, 2)])) = some (0xFFFFFFFD, 0x104, .running) := by decide
theorem test_srl_fills_zeros :
    after 3 (step (at100 0x0020D1B3 [(1, 0xFFFFFFDC), (2, 0x1C)])) = some (0xF, 0x104, .running) := by decide
theorem test_sra_fills_signs :
    after 3 (step (at100 0x4020D1B3 [(1, 0xFFFFFFDC), (2, 2)])) = some (0xFFFFFFF7, 0x104, .running) := by decide
theorem test_or :
    after 3 (step (at100 0x0020E1B3 [(1, 0x12340000), (2, 0x5678)])) = some (0x12345678, 0x104, .running) := by decide
theorem test_rem_sign_of_dividend :
    after 3 (step (at100 0x0220E1B3 [(1, 0xFFFFFFF9), (2, 2)])) = some (0xFFFFFFFF, 0x104, .running) := by decide
theorem test_rem_by_zero :
    after 3 (step (at100 0x0220E1B3 [(1, 7), (2, 0)])) = some (7, 0x104, .running) := by decide
theorem test_and :
    after 3 (step (at100 0x0020F1B3 [(1, 0xF0F0F0F0), (2, 0xFF00FF00)])) = some (0xF000F000, 0x104, .running) := by decide
theorem test_addi_most_negative :
    after 3 (step (at100 0x80008193 [(1, 5)])) = some (0xFFFFF805, 0x104, .running) := by decide
theorem test_slli_ignores_high_immediate :
    after 3 (step (at100 0xFE309193 [(1, 0x80000010)])) = some (0x80, 0x104, .running) := by decide
theorem test_slti_sign_extends :
    after 3 (step (at100 0xFFF0A193 [(1, 0)])) = some (0, 0x104, .running) := by decide
theorem test_slti_signed :
    after 3 (step (at100 0x8000A193 [(1, 0xFFFFF7FF)])) = some (1, 0x104, .running) := by decide
theorem test_xori :
    after 3 (step (at100 0x7FF0C193 [(1, 0x12345678)])) = some (0x12345187, 0x104, .running) := by decide
theorem test_srli :
    after 3 (step (at100 0x3E30D193 [(1, 0x80000010)])) = some (0x10000002, 0x104, .running) := by decide
theorem test_srai :
    after 3 (step (at100 0xFE30D193 [(1, 0x80000010)])) = some (0xF0000002, 0x104, .running) := by decide
theorem test_ori_immediate_is_no_register :
    after 3 (step (at100 0x00B0E193 [(1, 0x12340000), (11, 0xFF)])) = some (0x1234000B, 0x104, .running) := by decide
theorem test_ori_sign_extends :
    after 3 (step (at100 0x8000E193 [(1, 0)])) = some (0xFFFFF800, 0x104, .running) := by decide
theorem test_andi :
    after 3 (step (at100 0x8000F193 [(1, 0xFFFFFFFF)])) = some (0xFFFFF800, 0x104, .running) := by decide
theorem test_lui : after 3 (step (at100 0xDEADC1B7 [])) = some (0xDEADC000, 0x104, .running) := by decide
theorem test_write_to_x0_is_discarded :
    after 0 (step (at100 0x00500013 [])) = some (0, 0x104, .running) := by decide
theorem test_div_corner_fatal : after 3 (step (at100 0x0220C1B3 [(1, 7)] ⟨0x1000, 0, true, .fatal⟩)) =
    some (0, 0x100, .fatal .arithmeticFault 0x0220C1B3) := by decide

/-! ### Branches and the jump (section 6) -/

theorem test_beq_taken_backward :
    after 0 (step (at100 0xFE208CE3 [(1, 0x80000000), (2, 0x80000000)])) = some (0, 0xF8, .running) := by decide
theorem test_beq_not_taken :
    after 0 (step (at100 0x00208463 [(1, 5), (2, 6)])) = some (0, 0x104, .running) := by decide
theorem test_bne_taken :
    after 0 (step (at100 0xFE209CE3 [(1, 0x80000000), (2, 0)])) = some (0, 0xF8, .running) := by decide
theorem test_bne_not_taken :
    after 0 (step (at100 0x00209463 [(1, 5), (2, 5)])) = some (0, 0x104, .running) := by decide
theorem test_jal_links_and_jumps_back :
    after 1 (step (at100 0xFF9FF0EF [])) = some (0x104, 0xF8, .running) := by decide

/-! ### Loads and stores (section 5) -/

/-- The bytes before every load of section 5. -/
def loading (w : Word) (x1 : Word) : State :=
  (at100 w [(1, x1)]).loadBytes 0x200 [0x80, 0x7F, 0xFF, 0x01, 0xEF, 0xBE, 0xAD, 0xDE]

/-- The bytes before every store of section 5. -/
def storing (w : Word) (x1 : Word) : State :=
  (at100 w [(1, x1), (2, 0xA1B2C3D4)]).loadBytes 0x300 [0x11, 0x22, 0x33, 0x44, 0x55, 0x66, 0x77, 0x88]

theorem test_lb_zero_extends :
    after 3 (step (loading 0x00008183 0x200)) = some (0x80, 0x104, .running) := by decide
theorem test_lh_odd_address :
    after 3 (step (loading 0x00109183 0x200)) = some (0xFF7F, 0x104, .running) := by decide
theorem test_lh_zero_extends :
    after 3 (step (loading 0x00409183 0x200)) = some (0xBEEF, 0x104, .running) := by decide
theorem test_lw_misaligned :
    after 3 (step (loading 0x0030A183 0x200)) = some (0xADBEEF01, 0x104, .running) := by decide
theorem test_lw_last_word : after 3 (step (loading 0x0000A183 0xFFC)) = some (0, 0x104, .running) := by decide
theorem test_lb_address_wraps :
    after 3 (step (loading 0xFFF08183 0)) = some (0, 0x100, .fatal .outOfBounds 0xFFFFFFFF) := by decide
theorem test_sb_low_byte_only :
    bytesAfter 0x300 8 (step (storing 0x002083A3 0x300)) =
      some ([0x11, 0x22, 0x33, 0x44, 0x55, 0x66, 0x77, 0xD4], 0x104, .running) := by decide
theorem test_sh_odd_address :
    bytesAfter 0x300 8 (step (storing 0x002091A3 0x300)) =
      some ([0x11, 0x22, 0x33, 0xD4, 0xC3, 0x66, 0x77, 0x88], 0x104, .running) := by decide
theorem test_sw_negative_offset :
    bytesAfter 0x300 8 (step (storing 0xFE20AE23 0x308)) =
      some ([0x11, 0x22, 0x33, 0x44, 0xD4, 0xC3, 0xB2, 0xA1], 0x104, .running) := by decide
theorem test_sw_beyond_memory_writes_nothing :
    bytesAfter 0xFFD 3 (step (storing 0x0020A023 0xFFD)) =
      some ([0, 0, 0], 0x100, .fatal .outOfBounds 0xFFD) := by decide

/-! ### ECALL (section 7) and the errors before execution (section 8) -/

theorem test_ecall_prints_the_most_negative_integer :
    printed (step (at100 0x00000073 [(10, 1), (11, 0x80000000)])) =
      some ([0x2D, 0x32, 0x31, 0x34, 0x37, 0x34, 0x38, 0x33, 0x36, 0x34, 0x38], 0x104, .running) := by decide
theorem test_ecall_string_ends_at_the_bound :
    printed (step ((at100 0x00000073 [(10, 4), (11, 0xFFE)]).loadBytes 0xFFE [0x41, 0x42])) =
      some ([0x41, 0x42], 0x104, .running) := by decide
theorem test_misaligned_pc_comes_before_the_bound :
    after 0 (step ((State.resetWith p0).setPc 0x1002)) = some (0, 0x1002, .fatal .misalignedFetch 0x1002) := by decide
theorem test_pc_at_the_bound :
    after 0 (step ((State.resetWith p0).setPc 0x1000)) = some (0, 0x1000, .fatal .outOfBounds 0x1000) := by decide

/-! ### The written form (30_encoding.md R70, 95_test_vectors.md) -/

theorem test_asm_store : asmOf (.sw 6 5 0x1E 0x7F) = "sw x5, -2(x6)" := by decide
theorem test_asm_sra : asmOf (.sra 10 11 12) = "sra x10, x11, x12" := by decide
theorem test_pseudoLi : pseudoLi 5 0xDEADBEEF = [.lui 5 0xDEADC, .addi 5 5 0xEEF] := by decide

/-! ### Witnesses: a state and operands that meet the hypotheses of each statement that has some, for each
clause at the edge of its range -/

/-- A word at 0x100, x1 = 7, x2 = 2, register 0 hard-wired. -/
def w1 (w : Word) : State := at100 w [(1, 7), (2, 2)]

/-- The same with ZERO_REG_HARDWIRED = false and DIV_CORNER = FATAL. -/
def w2 (w : Word) : State := at100 w [(1, 7), (2, 2)] ⟨0x1000, 0, false, .fatal⟩

theorem wf_w1 : (w1 0x00000013).mem.wf := by decide

/-- Both ways a register can be writable: not register 0, or register 0 not hard-wired. -/
theorem writable_w1 : writable (w1 0x00000013) 3 := Or.inr (by decide)
theorem writable_w2 : writable (w2 0x00000013) 0 := Or.inl (by decide)

theorem witness_SignExtendGivesTheTwosComplementValue :
    signExtend 0x1 1 = some 0xFFFFFFFF ∧ signExtend 0x80000000 32 = some 0x80000000 ∧
    signExtend 0xFFF 0 = none ∧ signExtend 0xFFF 33 = none := by decide

theorem witness_StoreOffsetTakesTheStatedWordBits :
    (storeOffset 0x1F 0x3F).toInt = 2047 ∧ (storeOffset 0x00 0x40).toInt = -2048 := by decide

theorem witness_BranchOffsetTakesTheStatedWordBits :
    (branchOffset 0x1F 0x3F).toInt = 4094 ∧ (branchOffset 0x00 0x40).toInt = -4096 := by decide

theorem witness_JumpOffsetTakesTheStatedWordBits :
    (jumpOffset 0x7FFFF).toInt = 1048574 ∧ (jumpOffset 0x80000).toInt = -1048576 := by decide

theorem witness_EveryAdmittedOffsetHasFields :
    (0xFFFFF800 : Word).toInt = -2048 ∧ (0x7FF : Word).toInt = 2047 ∧
    ((0xFFFFF000 : Word).toInt % 2 = 0 ∧ (0xFFFFF000 : Word).toInt = -4096) ∧
    ((0xFFE : Word).toInt % 2 = 0 ∧ (0xFFE : Word).toInt = 4094) ∧
    ((0xFFF00000 : Word).toInt % 2 = 0 ∧ (0xFFF00000 : Word).toInt = -1048576) ∧
    ((0xFFFFE : Word).toInt % 2 = 0 ∧ (0xFFFFE : Word).toInt = 1048574) := by decide

theorem witness_DecoderAcceptsExactlyTheSupportedOpcodes :
    supportedOpcode ((0xFFFFFFB3 : Word).extractLsb' 0 7) ∧ ¬supportedOpcode ((0x5B : Word).extractLsb' 0 7) := by
  unfold supportedOpcode; decide

theorem witness_RecordRepacksToItsWord :
    decode 0x40C5D533 = .record ⟨0x40C5D533, 0x33, .R 10 5 11 12 0x20⟩ := by decide

theorem witness_ReadingAnEncodedInstructionGivesItBack :
    Instr.wellFormed (.srai 3 1 0x41F) = true ∧ encode (.srai 3 1 0x41F) = 0x41F0D193 := by decide

theorem witness_AReadWordIsTheEncodingOfItsInstruction :
    readInstr 0xFE309193 = .instr (.slli 3 1 0xFE3) := by decide

theorem witness_ReadingFollowsTheOpcodeMap :
    readInstr 0x41F0D193 = .instr (.srai 3 1 0x41F) ∧
    ∃ row ∈ opcodeMap, (0x41F0D193 : Word) &&& row.mask = row.pattern :=
  ⟨by decide, ⟨"SRAI", 0x4000707F, 0x40005013⟩, by simp [opcodeMap], by decide⟩

theorem witness_WordsThatAreNoInstructionAreRejectedByKind :
    (∀ row ∈ opcodeMap, (0x5B : Word) &&& row.mask ≠ row.pattern) ∧
    ¬supportedOpcode ((0x5B : Word).extractLsb' 0 7) ∧
    (∀ row ∈ opcodeMap, (0x0620C1B3 : Word) &&& row.mask ≠ row.pattern) ∧
    supportedOpcode ((0x0620C1B3 : Word).extractLsb' 0 7) := by
  unfold supportedOpcode opcodeMap; decide

theorem witness_TableWordsDecodeToTheirInstruction :
    Instr.wellFormed (.srli 3 1 0x803) = true ∧ decodeTableWord 32 0x8030D193 = some (.srli 3 1 0x803) := by
  decide

/-- The program ends exactly at MEM_SIZE. -/
theorem witness_BootPlacesTheProgram :
    let p : Params := ⟨0x108, 0x100, true, .riscvM⟩
    p.entryPc.toNat + 4 * [(0x00A00513 : Word), 0x00000073].length ≤ p.memSize := by decide

/-- The last word of memory. -/
theorem witness_StepRunsTheDecodedInstruction :
    let s := ((State.resetWith p0).setPc 0xFFC).loadWords 0xFFC [0x00000013]
    s.status = .running ∧ s.pc.toNat % 4 = 0 ∧ s.pc.toNat + 4 ≤ s.params.memSize ∧
      holdsWord s.mem s.pc.toNat 0x00000013 ∧ readInstr 0x00000013 = .instr (.addi 0 0 0) := by
  unfold holdsWord; decide

theorem witness_AFetchWordIsTheNextInstructionRun :
    State.reset.mem.wf ∧ State.reset.status = .running ∧ State.reset.pc.toNat % 4 = 0 ∧
      State.reset.pc.toNat + 4 ≤ State.reset.params.memSize ∧ Instr.wellFormed (.addi 3 1 0xFFF) = true := by
  decide

/-- One state for each of the four clauses; the second has its bound one byte short, the others are at the
last word of memory. -/
theorem witness_FetchAndDecodeErrorsComeInTheStatedOrder :
    (let s := (State.resetWith p0).setPc 0x1002
     s.status = .running ∧ s.pc.toNat % 4 ≠ 0) ∧
    (let s := (State.resetWith ⟨0xFFF, 0, true, .riscvM⟩).setPc 0xFFC
     s.status = .running ∧ s.pc.toNat % 4 = 0 ∧ s.params.memSize < s.pc.toNat + 4) ∧
    (let s := ((State.resetWith p0).setPc 0xFFC).loadWords 0xFFC [0x0000A007]
     s.status = .running ∧ s.pc.toNat % 4 = 0 ∧ s.pc.toNat + 4 ≤ s.params.memSize ∧
       holdsWord s.mem s.pc.toNat 0x0000A007 ∧ readInstr 0x0000A007 = .invalidOpcode 0x0000A007) ∧
    (let s := ((State.resetWith p0).setPc 0xFFC).loadWords 0xFFC [0x0000B183]
     s.status = .running ∧ s.pc.toNat % 4 = 0 ∧ s.pc.toNat + 4 ≤ s.params.memSize ∧
       holdsWord s.mem s.pc.toNat 0x0000B183 ∧ readInstr 0x0000B183 = .invalidInstruction 0x0000B183) := by
  unfold holdsWord; decide

theorem witness_UnknownOpcodeIsFatalAndMutatesNothing :
    let s := at100 0xFFFFFFDB []
    s.status = .running ∧ s.pc.toNat % 4 = 0 ∧ s.pc.toNat + 4 ≤ s.params.memSize ∧
      holdsWord s.mem s.pc.toNat 0xFFFFFFDB ∧ ¬supportedOpcode ((0xFFFFFFDB : Word).extractLsb' 0 7) := by
  unfold holdsWord supportedOpcode; decide

theorem witness_NoInstructionExecutesAfterTheEnd :
    (State.reset.setStatus (.halted 0)).status ≠ .running ∧
    (State.reset.setStatus (.fatal .invalidOpcode 0)).status ≠ .running := by decide

/-- Halting: ECALL with x10 = 10; the csrrw word is ECALL too (95_test_vectors.md section 7). -/
theorem witness_EndingChangesTheStatusOnly :
    printed (step (at100 0x30001073 [(10, 10), (11, 0xDEADBEEF)])) = some ([], 0x100, .halted 0) := by decide

theorem witness_StepErrorsHaveTheStatedCauses :
    printed (step (at100 0x00000073 [(10, 0x10A)])) = some ([], 0x100, .fatal .illegalSyscall 0x10A) := by decide

theorem witness_PcAdvancesByFourOrByTheOffset :
    (w1 0x00208463).status = .running ∧
    after 0 (exec (.bne 1 2 0x08 0x00) (w1 0x00209463)) = some (0, 0x108, .running) := by decide

theorem witness_OnlyTheDestinationRegisterChanges :
    ∃ t, exec (.add 3 1 2) (w1 0x002081B3) = .next t ∧ destOf (.add 3 1 2) ≠ some 4 := ⟨_, rfl, by decide⟩

theorem witness_OnlyStoresChangeMemory :
    (w1 0x00000013).mem.wf ∧ (∃ t, exec (.sw 1 2 0 0) (w1 0x00000013) = .next t) ∧
    storeOf (w1 0x00000013) (.sw 1 2 0 0) = some (7, .word, 2) ∧
    storeOf (w1 0x00000013) (.add 3 1 2) = none := ⟨wf_w1, ⟨_, rfl⟩, by decide, by decide⟩

theorem witness_OnlyEcallAppendsToTheConsole :
    printed (exec (.ecall 0 0 0 0) (at100 0x00000073 [(10, 11), (11, 0x12345621)])) =
      some ([0x21], 0x104, .running) := by decide

theorem witness_TheConsoleCannotBeReadBack : ∃ t, step (w1 0x002081B3) = .next t := ⟨_, rfl⟩

/-- A load into x0 at the last word of memory, and a division into x0 under DIV_CORNER = FATAL. -/
theorem witness_AWriteToHardwiredZeroIsDiscarded :
    (let s := at100 0x0000A003 [(1, 0xFFC)]
     s.params.zeroRegHardwired = true ∧ destOf (.lw 0 1 0) = some 0 ∧
       accessOf s (.lw 0 1 0) = some (0xFFC, .word) ∧ 0xFFC + widthBytes .word ≤ s.params.memSize) ∧
    (let s := at100 0x0220C033 [(1, 7), (2, 2)] ⟨0x1000, 0, true, .fatal⟩
     s.params.zeroRegHardwired = true ∧ s.params.divCorner = .fatal ∧ destOf (.div 0 1 2) = some 0 ∧
       divisionOf s (.div 0 1 2) = some (7, 2)) := by decide

theorem witness_AddSubMulWrapModulo32Bits :
    writable (w1 0x00000013) 3 ∧ writable (w2 0x00000013) 0 := ⟨writable_w1, writable_w2⟩

theorem witness_XorOrAndWorkBitByBit :
    writable (w1 0x00000013) 3 ∧ writable (w2 0x00000013) 0 := ⟨writable_w1, writable_w2⟩

theorem witness_SltComparesAsSigned :
    writable (w1 0x00000013) 3 ∧ writable (w2 0x00000013) 0 := ⟨writable_w1, writable_w2⟩

theorem witness_RegisterShiftsUseTheLowFiveBits :
    writable (w1 0x00000013) 3 ∧ writable (w2 0x00000013) 0 := ⟨writable_w1, writable_w2⟩

/-- 7 / 2, and 0x80000000 / 1, beside the overflowing corner. -/
theorem witness_DivTruncatesAndRemFollowsTheDividend :
    writable (w1 0x00000013) 3 ∧
    ((w1 0x00000013).readReg 2 ≠ 0 ∧
      ¬((w1 0x00000013).readReg 1 = 0x80000000 ∧ (w1 0x00000013).readReg 2 = 0xFFFFFFFF)) ∧
    (let s := at100 0x0220C1B3 [(1, 0x80000000), (2, 1)]
     s.readReg 2 ≠ 0 ∧ ¬(s.readReg 1 = 0x80000000 ∧ s.readReg 2 = 0xFFFFFFFF)) :=
  ⟨writable_w1, by decide, by decide⟩

theorem witness_DivisionCornersUnderRiscvM :
    writable (w1 0x00000013) 3 ∧ (w1 0x00000013).params.divCorner = .riscvM ∧
    (at100 0x0220C1B3 [(1, 7), (2, 0)]).readReg 2 = 0 ∧
    (let s := at100 0x0220C1B3 [(1, 0x80000000), (2, 0xFFFFFFFF)]
     s.readReg 1 = 0x80000000 ∧ s.readReg 2 = 0xFFFFFFFF) := ⟨writable_w1, by decide, by decide, by decide⟩

theorem witness_DivisionCornersUnderFatal :
    let s := at100 0x0220C1B3 [(1, 0x80000000), (2, 0xFFFFFFFF)] ⟨0x1000, 0, true, .fatal⟩
    s.params.divCorner = .fatal ∧ s.readReg 1 = 0x80000000 ∧ s.readReg 2 = 0xFFFFFFFF ∧ s.readReg 4 = 0 := by
  decide

theorem witness_QuotientTimesDivisorPlusRemainder :
    writable (w1 0x00000013) 3 ∧ (w1 0x00000013).params.divCorner = .riscvM := ⟨writable_w1, by decide⟩

theorem witness_AddiXoriAndiUseTheSignedImmediate :
    writable (w1 0x00000013) 3 ∧ writable (w2 0x00000013) 0 := ⟨writable_w1, writable_w2⟩

theorem witness_SltiOriUseTheSignedImmediate :
    writable (w1 0x00000013) 3 ∧ writable (w2 0x00000013) 0 := ⟨writable_w1, writable_w2⟩

theorem witness_ImmediateShiftsUseTheLowFiveBits :
    writable (w1 0x00000013) 3 ∧ writable (w2 0x00000013) 0 := ⟨writable_w1, writable_w2⟩

theorem witness_LuiPlacesTheUpperImmediate :
    writable (w1 0x00000013) 3 ∧ writable (w2 0x00000013) 0 := ⟨writable_w1, writable_w2⟩

theorem witness_LoadImmediatePairGivesTheConstant :
    writable (w1 0x00000013) 3 ∧ (3 : RegIdx) ≠ 0 := ⟨writable_w1, by decide⟩

theorem witness_JalLinksAndJumps :
    writable (w1 0x00000013) 3 ∧ writable (w2 0x00000013) 0 := ⟨writable_w1, writable_w2⟩

/-- The last word of memory: x1 + (-4) = 0xFFC. -/
theorem witness_LoadWordReadsFourBytes :
    let s := at100 0xFFC0A183 [(1, 0x1000)]
    writable s 3 ∧ (s.readReg 1 + (0xFFC : BitVec 12).signExtend 32).toNat + 4 = s.params.memSize :=
  ⟨Or.inr (by decide), by decide⟩

/-- The last byte and the last halfword of memory. -/
theorem witness_SubWordLoadsZeroExtend :
    let s := at100 0x00008183 [(1, 0xFFF), (2, 0xFFE)]
    writable s 3 ∧ (s.readReg 1 + (0 : BitVec 12).signExtend 32).toNat + 1 = s.params.memSize ∧
      (s.readReg 2 + (0 : BitVec 12).signExtend 32).toNat + 2 = s.params.memSize :=
  ⟨Or.inr (by decide), by decide, by decide⟩

/-- The last byte, halfword and word of memory. -/
theorem witness_StoresWriteTheirLowBytes :
    let s := at100 0x0020A023 [(1, 0xFFF), (2, 0xFFE), (3, 0xFFC)]
    s.mem.wf ∧ (s.readReg 1 + storeOffset 0 0).toNat + 1 = s.params.memSize ∧
      (s.readReg 2 + storeOffset 0 0).toNat + 2 = s.params.memSize ∧
      (s.readReg 3 + storeOffset 0 0).toNat + 4 = s.params.memSize := by decide

/-- One byte beyond memory, for a load and a store. -/
theorem witness_AccessesBeyondMemoryRaiseOutOfBounds :
    let s := at100 0x0020A023 [(1, 0xFFD)]
    accessOf s (.lw 3 1 0) = some (0xFFD, .word) ∧ accessOf s (.sw 1 2 0 0) = some (0xFFD, .word) ∧
      s.params.memSize + 1 = (0xFFD : Word).toNat + widthBytes .word := by decide

theorem witness_ALoadReturnsWhatTheStoreWrote :
    let s := at100 0x0020A023 [(1, 0xFFC), (2, 0xDEADBEEF)]
    s.mem.wf ∧ writable s 3 ∧ s.loadAddress 1 0 = s.storeAddress 1 0 0 ∧
      (s.storeAddress 1 0 0).toNat + 4 ≤ s.params.memSize :=
  ⟨by decide, Or.inr (by decide), by decide, by decide⟩

theorem witness_AStoredInstructionIsFetchedByTheNextStep :
    let s := at100 0x0020A023 [(1, 0x104), (2, 0x002081B3)]
    s.mem.wf ∧ s.status = .running ∧ s.storeAddress 1 0 0 = s.pc + 4 ∧ (s.pc + 4).toNat % 4 = 0 ∧
      (s.pc + 4).toNat + 4 ≤ s.params.memSize ∧ Instr.wellFormed (.add 3 1 2) = true ∧
      s.readReg 2 = encode (.add 3 1 2) := by decide

theorem witness_EcallPrintsASignedDecimal : (at100 0x00000073 [(10, 1), (11, 0xFFFFFFFF)]).readReg 10 = 1 := by
  decide

theorem witness_EcallPrintsTheStringUpToZeroOrTheBound :
    (at100 0x00000073 [(10, 4), (11, 0x1000)]).readReg 10 = 4 := by decide

theorem witness_EcallPrintsOneCharacter : (at100 0x00000073 [(10, 11), (11, 0x41)]).readReg 10 = 11 := by decide

theorem witness_EcallExitHaltsWithCodeZero : (at100 0x00000073 [(10, 10)]).readReg 10 = 10 := by decide

theorem witness_EcallRejectsEveryOtherNumber :
    let s := at100 0x00000073 [(10, 99)]
    s.readReg 10 ≠ 1 ∧ s.readReg 10 ≠ 4 ∧ s.readReg 10 ≠ 10 ∧ s.readReg 10 ≠ 11 := by decide

/-- The smallest memory and the largest. -/
theorem witness_ResetMeetsTheInvariant :
    Params.wf ⟨4, 0, true, .riscvM⟩ ∧ Params.wf ⟨2 ^ 32, 0xFFFFFFFC, false, .fatal⟩ := by decide

theorem witness_BootMeetsTheInvariant : Params.wf p0 := by decide

/-- The reset state meets the invariant, and a step leads from it. -/
theorem witness_EveryStepKeepsTheInvariant : State.reset.Inv ∧ ∃ t, step State.reset = .next t :=
  ⟨⟨by decide, by decide, by decide, fun _ => by decide, by decide, by decide⟩, ⟨_, rfl⟩⟩

theorem witness_EveryReachedStateMeetsTheInvariant :
    Params.wf p0 ∧ ∃ t, run 2 (State.boot p0 [0x00A00513, 0x00000073] 0 []) = .next t := ⟨by decide, ⟨_, rfl⟩⟩

end Sys2Proof.Tests
end

section
/-! The statements of the encoding family: the store and branch offsets by the bits of the instruction word
(30_encoding.md R62, R63) and the opcodes the decoder accepts (R58). -/

namespace Sys2Proof.Proofs
open Sys2Proof Sys2Proof.Machine Sys2Proof.Claims

/-! ### The ranges of the two offsets -/

/-- R62: the offset extends twelve bits. -/
theorem storeOffset_bounds (lo : BitVec 5) (hi : BitVec 7) :
    -2048 ≤ (storeOffset lo hi).toInt ∧ (storeOffset lo hi).toInt ≤ 2047 := by
  have h := toInt_sextShift_bounds ((hi ++ lo : BitVec 12).setWidth 32) (n := 12) (by decide) (by decide)
  rw [storeOffset]
  omega

/-- The parity of a word's signed value is its bit 0. -/
theorem toInt_emod_two_of_getLsbD_zero {v : Word} (h : v.getLsbD 0 = false) : v.toInt % 2 = 0 := by
  rw [getLsbD_zero_iff] at h
  rw [BitVec.toInt_eq_toNat_cond]
  split <;> omega

theorem getLsbD_zero_branchOffset (lo : BitVec 5) (hi : BitVec 7) : (branchOffset lo hi).getLsbD 0 = false :=
  getLsbD_branchOffset lo hi (by decide)

/-- R63: the offset extends thirteen bits and is even, so 4095 is not reached. -/
theorem branchOffset_bounds (lo : BitVec 5) (hi : BitVec 7) :
    -4096 ≤ (branchOffset lo hi).toInt ∧ (branchOffset lo hi).toInt ≤ 4094 := by
  have heven := toInt_emod_two_of_getLsbD_zero (getLsbD_zero_branchOffset lo hi)
  have hrange : -(2 ^ (13 - 1) : Int) ≤ (branchOffset lo hi).toInt ∧
      (branchOffset lo hi).toInt < 2 ^ (13 - 1) :=
    toInt_sextShift_bounds _ (by decide) (by decide)
  omega

/-! ### The two offsets of a word -/

/-- R62 in word bits: the low five bits from word[11:7], the next seven from word[31:25], then the sign. -/
theorem getLsbD_storeOffset_of_word (w : Word) {i : Nat} (h : i < 32) :
    (storeOffset (w.extractLsb' 7 5) (w.extractLsb' 25 7)).getLsbD i =
      if i < 5 then w.getLsbD (i + 7) else if i < 12 then w.getLsbD (i + 20) else w.getLsbD 31 := by
  rw [getLsbD_storeOffset _ _ h]
  split_ifs <;> simp only [BitVec.getLsbD_extractLsb'] <;> grind

/-- R63 in word bits: bit 0 clear, bit 11 from word[7], the sign from word[31]. -/
theorem getLsbD_branchOffset_of_word (w : Word) {i : Nat} (h : i < 32) :
    (branchOffset (w.extractLsb' 7 5) (w.extractLsb' 25 7)).getLsbD i =
      if i = 0 then false else if i < 5 then w.getLsbD (i + 7) else if i < 11 then w.getLsbD (i + 20)
      else if i = 11 then w.getLsbD 7 else w.getLsbD 31 := by
  rw [getLsbD_branchOffset _ _ h]
  split_ifs <;> simp only [BitVec.getLsbD_extractLsb'] <;> grind

/-- Settles O3: the bits are those of the two fields, the range that of twelve bits. -/
theorem storeOffsetTakesTheStatedWordBits : Obligations.StoreOffsetTakesTheStatedWordBits := by
  intro w
  refine ⟨fun i hi => ?_, fun i hl hh => ?_, fun i hl hh => ?_, storeOffset_bounds _ _⟩ <;>
    rw [getLsbD_storeOffset_of_word w (by omega)]
  · rw [if_pos hi]
  · rw [if_neg (by omega), if_pos (by omega)]
  · rw [if_neg (by omega), if_neg (by omega)]

/-- Settles O4: the bits are those of the two fields, reassembled; the range is that of thirteen bits with
bit 0 clear. -/
theorem branchOffsetTakesTheStatedWordBits : Obligations.BranchOffsetTakesTheStatedWordBits := by
  intro w
  refine ⟨getLsbD_zero_branchOffset _ _, fun i hl hh => ?_, fun i hl hh => ?_,
    getLsbD_branchOffset_of_word w (by decide), fun i hl hh => ?_, branchOffset_bounds _ _⟩ <;>
    rw [getLsbD_branchOffset_of_word w (by omega), if_neg (by omega)]
  · rw [if_pos (by omega)]
  · rw [if_neg (by omega), if_pos (by omega)]
  · rw [if_neg (by omega), if_neg (by omega), if_neg (by omega)]

/-! ### The opcodes the decoder accepts -/

theorem decode_of_fields {w : Word} {f : Fields} (h : fieldsOf w = some f) :
    decode w = .record { raw := w, opcode := fieldOpcode w, fields := f } := by
  rw [decode, h]

theorem decode_of_no_fields {w : Word} (h : fieldsOf w = none) : decode w = .invalidOpcode w := by
  rw [decode, h]

/-- R58: a supported opcode gives the word the fields of the format it selects. -/
theorem fieldsOf_of_supportedOpcode {w : Word} (h : supportedOpcode (fieldOpcode w)) :
    ∃ f, fieldsOf w = some f ∧ formatSelectedBy (fieldOpcode w) f := by
  obtain h | h | h | h | h | h | h | h := h
  · exact ⟨_, fieldsOf_0x33 h, h⟩
  · exact ⟨_, fieldsOf_0x13 h, .inl h⟩
  · exact ⟨_, fieldsOf_0x03 h, .inr (.inl h)⟩
  · exact ⟨_, fieldsOf_0x73 h, .inr (.inr h)⟩
  · exact ⟨_, fieldsOf_0x23 h, h⟩
  · exact ⟨_, fieldsOf_0x63 h, h⟩
  · exact ⟨_, fieldsOf_0x6F h, h⟩
  · exact ⟨_, fieldsOf_0x37 h, h⟩

/-- R58: any other opcode gives it none. -/
theorem fieldsOf_of_not_supportedOpcode {w : Word} (h : ¬supportedOpcode (fieldOpcode w)) :
    fieldsOf w = none :=
  fieldsOf_eq_none (by simpa only [supportedOpcode, not_or] using h)

/-- Settles O7: by the fields each opcode selects. -/
theorem decoderAcceptsExactlyTheSupportedOpcodes : Obligations.DecoderAcceptsExactlyTheSupportedOpcodes := by
  refine fun w => ⟨fun h => ?_, fun h => decode_of_no_fields (fieldsOf_of_not_supportedOpcode h)⟩
  obtain ⟨f, hf, hformat⟩ := fieldsOf_of_supportedOpcode h
  exact ⟨_, decode_of_fields hf, rfl, rfl, hformat⟩

end Sys2Proof.Proofs
end

section
/-! The statements of the register-register family (41_alu_reg.md R102 to R104, R106, R107, R111, R113): what
one write of a register leaves unchanged, said once, and then the value the ALU gives each instruction. -/

namespace Sys2Proof.Proofs
open Sys2Proof Sys2Proof.Machine Sys2Proof.Claims

/-! ### An instruction that writes one register -/

theorem writable_iff_hardwired_eq_false {s : State} {rd : RegIdx} :
    writable s rd ↔ s.hardwired rd = false := by
  rw [writable, State.hardwired, Bool.and_eq_false_iff, beq_eq_false_iff_ne]

/-- Writing rd and moving pc leaves every other register, memory, console, status and parameters. -/
theorem setsOnly_of_exec_eq_writeReg_setPc {i : Instr} {s : State} {rd : RegIdx} {v pc' : Word}
    (hw : writable s rd) (he : exec i s = .next ((s.writeReg rd v).setPc pc')) :
    setsOnly i s rd v pc' := by
  refine ⟨_, he, ?_, fun r hr => ?_, rfl, fun a => ?_, ?_⟩
  · rw [State.readReg_setPc, State.readReg_writeReg_self (writable_iff_hardwired_eq_false.mp hw)]
  · rw [State.readReg_setPc, State.readReg_writeReg_of_ne _ _ hr]
  · rw [State.setPc_mem, State.writeReg_mem]
  · simp [goesOn]

theorem setsOnly_of_exec_eq_writeBack {i : Instr} {s : State} {rd : RegIdx} {v : Word}
    (hw : writable s rd) (he : exec i s = writeBack rd v s) : setsOnly i s rd v (s.pc + 4) :=
  setsOnly_of_exec_eq_writeReg_setPc hw (by rw [he, writeBack_eq, State.advance, State.writeReg_pc])

/-- R101: a register-register instruction writes what the ALU gives for its two operands. -/
theorem setsOnly_alu_of_exec_eq_execReg {i : Instr} {op : AluOp} {s : State} {rd rs1 rs2 : RegIdx}
    (hw : writable s rd) (he : exec i s = execReg op rd rs1 rs2 s) :
    setsOnly i s rd (alu op (s.readReg rs1) (s.readReg rs2)) (s.pc + 4) :=
  setsOnly_of_exec_eq_writeBack hw he

/-! ### The ALU's values -/

theorem toNat_alu_add (a b : Word) : (alu .add a b).toNat = (a.toNat + b.toNat) % 2 ^ 32 :=
  BitVec.toNat_add a b

/-- R103: the difference is taken in Z, where it may be negative. -/
theorem toNat_alu_sub (a b : Word) :
    ((alu .sub a b).toNat : Int) = ((a.toNat : Int) - b.toNat) % 2 ^ 32 := by
  rw [alu, BitVec.toNat_sub]
  omega

theorem toNat_alu_mul (a b : Word) : (alu .mul a b).toNat = a.toNat * b.toNat % 2 ^ 32 :=
  BitVec.toNat_mul a b

theorem getLsbD_alu_xor (a b : Word) (k : Nat) :
    (alu .xor a b).getLsbD k = (a.getLsbD k != b.getLsbD k) :=
  BitVec.getLsbD_xor

theorem getLsbD_alu_or (a b : Word) (k : Nat) :
    (alu .or a b).getLsbD k = (a.getLsbD k || b.getLsbD k) :=
  BitVec.getLsbD_or

theorem getLsbD_alu_and (a b : Word) (k : Nat) :
    (alu .and a b).getLsbD k = (a.getLsbD k && b.getLsbD k) :=
  BitVec.getLsbD_and

/-- Settles O30: each writes the ALU's value, which is the exact result modulo 2^32. -/
theorem addSubMulWrapModulo32Bits : Obligations.AddSubMulWrapModulo32Bits :=
  fun _ _ _ _ hw =>
    ⟨⟨_, setsOnly_alu_of_exec_eq_execReg hw rfl, toNat_alu_add _ _⟩,
      ⟨_, setsOnly_alu_of_exec_eq_execReg hw rfl, toNat_alu_sub _ _⟩,
      ⟨_, setsOnly_alu_of_exec_eq_execReg hw rfl, toNat_alu_mul _ _⟩⟩

/-- Settles O31: each writes the ALU's value, whose bit k is that operation on the bits k. -/
theorem xorOrAndWorkBitByBit : Obligations.XorOrAndWorkBitByBit :=
  fun _ _ _ _ hw =>
    ⟨⟨_, setsOnly_alu_of_exec_eq_execReg hw rfl, fun k _ => getLsbD_alu_xor _ _ k⟩,
      ⟨_, setsOnly_alu_of_exec_eq_execReg hw rfl, fun k _ => getLsbD_alu_or _ _ k⟩,
      ⟨_, setsOnly_alu_of_exec_eq_execReg hw rfl, fun k _ => getLsbD_alu_and _ _ k⟩⟩

/-- Settles O32: the ALU's value for SLT is the signed comparison (R100). -/
theorem sltComparesAsSigned : Obligations.SltComparesAsSigned :=
  fun _ _ _ _ hw => setsOnly_alu_of_exec_eq_execReg (op := .slt) hw rfl

end Sys2Proof.Proofs
end

section
/-! The statements of the register-immediate family (42_alu_imm.md R121, R124, R128, R129): what the
sign-extended and the upper immediate are, and then the value each instruction writes. -/

namespace Sys2Proof.Proofs
open Sys2Proof Sys2Proof.Machine Sys2Proof.Claims

/-! ### The immediates -/

/-- R61: from bit 11 on, every bit of the extended immediate is its sign bit. -/
theorem getLsbD_sext12 (imm : BitVec 12) {k : Nat} (hk : k < 32) :
    (sext12 imm).getLsbD k = imm.getLsbD (min k 11) := by
  rw [sext12, getLsbD_sextShift _ (by decide) (by decide) hk]
  split
  · rw [BitVec.getLsbD_setWidth, decide_eq_true hk, Bool.true_and, Nat.min_eq_left (by omega)]
  · rw [BitVec.getLsbD_setWidth, Nat.min_eq_right (by omega)]
    rfl

/-- R129: the twelve zeros appended below the immediate multiply it by 2^12. -/
theorem toNat_upperImmediate (imm : BitVec 20) : (upperImmediate imm).toNat = imm.toNat * 2 ^ 12 := by
  rw [upperImmediate, BitVec.toNat_append, BitVec.toNat_ofNat, Nat.zero_mod, Nat.or_zero, Nat.shiftLeft_eq]

/-! ### The value an immediate instruction writes -/

/-- The sum with a signed operand, taken in Z, where it may be negative. -/
theorem toNat_alu_add_toInt (a b : Word) :
    ((alu .add a b).toNat : Int) = (a.toNat + b.toInt) % 2 ^ 32 := by
  rw [toNat_alu_add, BitVec.toInt_eq_toNat_cond]
  split <;> omega

/-- R120: a register-immediate instruction that is no shift writes what the ALU gives for its register and
the sign-extended immediate. -/
theorem setsOnly_alu_of_exec_eq_execImm {i : Instr} {op : AluOp} {s : State} {rd rs1 : RegIdx}
    {imm : BitVec 12} (hw : writable s rd) (he : exec i s = execImm op rd rs1 imm s) :
    setsOnly i s rd (alu op (s.readReg rs1) (sext12 imm)) (s.pc + 4) :=
  setsOnly_of_exec_eq_writeBack hw he

/-- Settles O38: each writes the ALU's value for the sign-extended immediate, which keeps the immediate's
signed value and repeats its bit 11. -/
theorem addiXoriAndiUseTheSignedImmediate : Obligations.AddiXoriAndiUseTheSignedImmediate := by
  intro s rd rs1 imm hw
  refine ⟨⟨_, setsOnly_alu_of_exec_eq_execImm hw rfl, ?_⟩,
    ⟨_, setsOnly_alu_of_exec_eq_execImm hw rfl, fun k hk => ?_⟩,
    ⟨_, setsOnly_alu_of_exec_eq_execImm hw rfl, fun k hk => ?_⟩⟩
  · rw [toNat_alu_add_toInt, toInt_sext12]
  · rw [getLsbD_alu_xor, getLsbD_sext12 imm hk]
  · rw [getLsbD_alu_and, getLsbD_sext12 imm hk]

/-- Settles O41: LUI writes the upper immediate. -/
theorem luiPlacesTheUpperImmediate : Obligations.LuiPlacesTheUpperImmediate :=
  fun _ _ imm hw => ⟨_, setsOnly_of_exec_eq_writeBack hw rfl, toNat_upperImmediate imm⟩

end Sys2Proof.Proofs
end

section
/-! The statements of the branch and jump family (43_branch_jump.md R141 to R143): what a move of pc leaves
unchanged, and then where each condition sends it. -/

namespace Sys2Proof.Proofs
open Sys2Proof Sys2Proof.Machine Sys2Proof.Claims

/-! ### An instruction that only moves pc -/

theorem movesOnly_of_exec_eq_setPc {i : Instr} {s : State} {pc' : Word}
    (he : exec i s = .next (s.setPc pc')) : movesOnly i s pc' :=
  ⟨_, he, State.setPc_pc .., fun _ => State.readReg_setPc .., fun _ => by rw [State.setPc_mem],
    State.setPc_console .., State.setPc_status .., State.setPc_params ..⟩

/-! ### Where a branch goes -/

/-- R140. -/
theorem taken_eq_iff (a b : Word) : taken .eq a b = true ↔ a = b := beq_iff_eq

/-- R140. -/
theorem taken_ne_iff (a b : Word) : taken .ne a b = true ↔ ¬a = b := by
  rw [taken, Bool.not_eq_true', beq_eq_false_iff_ne]

/-- R141 and R142, for either condition. -/
theorem movesOnly_of_exec_eq_execBranch {i : Instr} {cond : Cond} {s : State} {rs1 rs2 : RegIdx}
    {immLo : BitVec 5} {immHi : BitVec 7} (he : exec i s = execBranch cond rs1 rs2 immLo immHi s) :
    movesOnly i s (if taken cond (s.readReg rs1) (s.readReg rs2) then s.pc + branchOffset immLo immHi
      else s.pc + 4) := by
  refine movesOnly_of_exec_eq_setPc (he.trans ?_)
  rw [execBranch]
  split
  · rfl
  · rw [State.advance]

/-- Settles O43: both are the one branch, BEQ under equality and BNE under its negation. -/
theorem branchesGoToTheirOffsetOrFallThrough : Obligations.BranchesGoToTheirOffsetOrFallThrough := by
  intro s rs1 rs2 immLo immHi
  have hbeq : movesOnly (.beq rs1 rs2 immLo immHi) s _ := movesOnly_of_exec_eq_execBranch (cond := .eq) rfl
  have hbne : movesOnly (.bne rs1 rs2 immLo immHi) s _ := movesOnly_of_exec_eq_execBranch (cond := .ne) rfl
  simp only [taken_eq_iff] at hbeq
  simp only [taken_ne_iff, ite_not] at hbne
  exact ⟨hbeq, hbne⟩

/-- Settles O44: JAL writes the link and moves pc, both reckoned from the state before. -/
theorem jalLinksAndJumps : Obligations.JalLinksAndJumps :=
  fun _ _ _ hw => setsOnly_of_exec_eq_writeReg_setPc hw rfl

end Sys2Proof.Proofs
end

section
/-! The statements of the system family (45_system.md R161, R166): what a call number outside the table
does. -/

namespace Sys2Proof.Proofs
open Sys2Proof Sys2Proof.Machine Sys2Proof.Claims

/-- R161: the table of calls has four rows, and a number in none of them is an error. -/
theorem syscall_of_unknown {n : Word} (h1 : n ≠ 1) (h4 : n ≠ 4) (h10 : n ≠ 10) (h11 : n ≠ 11) (s : State) :
    syscall n s = raise .illegalSyscall n s := by
  rw [syscall, if_neg h1, if_neg h4, if_neg h10, if_neg h11]

/-- Settles O55: ECALL makes the call of the number in x10, and an unknown call only raises its error. -/
theorem ecallRejectsEveryOtherNumber : Obligations.EcallRejectsEveryOtherNumber :=
  fun s _ _ _ _ h1 h4 h10 h11 => syscall_of_unknown h1 h4 h10 h11 s

end Sys2Proof.Proofs
end

section
/-! The statements of the exceptions family (60_exceptions.md R171): what the step does with a fetched word
of an unsupported opcode. -/

namespace Sys2Proof.Proofs
open Sys2Proof Sys2Proof.Machine Sys2Proof.Claims

/-- R41: the fetch reads the word whose bytes memory holds. -/
theorem readLE_of_holdsWord {m : Memory} {a : Nat} {w : Word} (h : holdsWord m a w) : m.readLE a 4 = w :=
  readLE_of_bytes fun k hk => BitVec.eq_of_toNat_eq ((h k hk).trans (toNat_byteOf w k).symm)

/-- R177, line 3: once the fetch has succeeded, the opcode is checked before anything else. -/
theorem step_of_invalidOpcode {s : State} {w : Word} (hrun : s.status = .running)
    (halign : s.pc.toNat % 4 = 0) (hbound : s.pc.toNat + 4 ≤ s.params.memSize)
    (hword : s.mem.readLE s.pc.toNat 4 = w) (hread : readInstr w = .invalidOpcode w) :
    step s = raise .invalidOpcode w s := by
  rw [step_of_fetch hrun halign hbound, hword, hread]

/-- Settles O19: an unsupported opcode selects no format, and the error raised changes the status only. -/
theorem unknownOpcodeIsFatalAndMutatesNothing : Obligations.UnknownOpcodeIsFatalAndMutatesNothing := by
  intro s w hrun halign hbound hholds hopcode
  have hread : readInstr w = .invalidOpcode w :=
    readInstr_of_no_fields (fieldsOf_of_not_supportedOpcode hopcode)
  exact step_of_invalidOpcode hrun halign hbound (readLE_of_holdsWord hholds) hread

end Sys2Proof.Proofs
end

section
/-! The statements about encoding and decoding (30_encoding.md R59, R66, R67; 40_decoder.md R90, R91): reading
and encoding are each other's inverse, and the opcode map says which words are instructions. -/

namespace Sys2Proof.Proofs
open Sys2Proof Sys2Proof.Machine Sys2Proof.Claims

/-! ### Reading a packed word, format by format -/

theorem readInstr_wordR {f7 : BitVec 7} {rs2 rs1 rd : RegIdx} {f3 : BitVec 3} {i : Instr}
    (h : classifyReg f3 f7 rd rs1 rs2 = some i) : readInstr (wordR f7 rs2 rs1 f3 rd 0x33#7) = .instr i := by
  rw [readInstr_0x33 (fieldOpcode_wordR ..)]
  simp [h]

theorem readInstr_wordI_operation {imm : BitVec 12} {rs1 rd : RegIdx} {f3 : BitVec 3} {i : Instr}
    (h : classifyImm f3 rd rs1 imm = some i) : readInstr (wordI imm rs1 f3 rd 0x13#7) = .instr i := by
  rw [readInstr_0x13 (fieldOpcode_wordI ..)]
  simp [h]

theorem readInstr_wordI_load {imm : BitVec 12} {rs1 rd : RegIdx} {f3 : BitVec 3} {i : Instr}
    (h : classifyLoad f3 rd rs1 imm = some i) : readInstr (wordI imm rs1 f3 rd 0x03#7) = .instr i := by
  rw [readInstr_0x03 (fieldOpcode_wordI ..)]
  simp [h]

theorem readInstr_wordS_store {hi : BitVec 7} {rs2 rs1 : RegIdx} {f3 : BitVec 3} {lo : BitVec 5} {i : Instr}
    (h : classifyStore f3 rs1 rs2 lo hi = some i) : readInstr (wordS hi rs2 rs1 f3 lo 0x23#7) = .instr i := by
  rw [readInstr_0x23 (fieldOpcode_wordS ..)]
  simp [h]

theorem readInstr_wordS_branch {hi : BitVec 7} {rs2 rs1 : RegIdx} {f3 : BitVec 3} {lo : BitVec 5} {i : Instr}
    (h : classifyBranch f3 rs1 rs2 lo hi = some i) : readInstr (wordS hi rs2 rs1 f3 lo 0x63#7) = .instr i := by
  rw [readInstr_0x63 (fieldOpcode_wordS ..)]
  simp [h]

/-- Settles O9: the fields of an encoding are the instruction's operands, and they classify as it; immediate
bit 10 decides between SRLI and SRAI. -/
theorem readingAnEncodedInstructionGivesItBack : Obligations.ReadingAnEncodedInstructionGivesItBack := by
  intro i hwf
  cases i with
  | add | sub | mul | sll | slt | xor | div | srl | sra | or | rem | and => exact readInstr_wordR rfl
  | addi | slli | slti | xori | ori | andi => exact readInstr_wordI_operation rfl
  | srli rd rs1 imm | srai rd rs1 imm =>
    have hbit := beq_iff_eq.mp hwf
    exact readInstr_wordI_operation (by rw [classifyImm_shift rfl, hbit]; rfl)
  | lui =>
    refine (readInstr_0x37 (fieldOpcode_wordU ..)).trans ?_
    rw [fieldRd_wordU, fieldImm20_wordU]
  | jal =>
    refine (readInstr_0x6F (fieldOpcode_wordU ..)).trans ?_
    rw [fieldRd_wordU, fieldImm20_wordU]
  | beq | bne => exact readInstr_wordS_branch rfl
  | lb | lh | lw => exact readInstr_wordI_load rfl
  | sb | sh | sw => exact readInstr_wordS_store rfl
  | ecall =>
    refine (readInstr_0x73 (fieldOpcode_wordI ..)).trans ?_
    rw [fieldRd_wordI, fieldFunct3_wordI, fieldRs1_wordI, fieldImm12_wordI]

/-! ### From a word to its instruction and back -/

/-- R91: each format's fields partition the word. -/
theorem repack_of_fieldsOf_eq_some {w : Word} {f : Fields} (h : fieldsOf w = some f) :
    repack { raw := w, opcode := fieldOpcode w, fields := f } = w := by
  by_cases hop : supportedOpcode (fieldOpcode w)
  · obtain hop | hop | hop | hop | hop | hop | hop | hop := hop
    · cases (fieldsOf_0x33 hop).symm.trans h
      exact wordR_fields w
    · cases (fieldsOf_0x13 hop).symm.trans h
      exact wordI_fields w
    · cases (fieldsOf_0x03 hop).symm.trans h
      exact wordI_fields w
    · cases (fieldsOf_0x73 hop).symm.trans h
      exact wordI_fields w
    · cases (fieldsOf_0x23 hop).symm.trans h
      exact wordS_fields w
    · cases (fieldsOf_0x63 hop).symm.trans h
      exact wordS_fields w
    · cases (fieldsOf_0x6F hop).symm.trans h
      exact wordU_fields w
    · cases (fieldsOf_0x37 hop).symm.trans h
      exact wordU_fields w
  · rw [fieldsOf_of_not_supportedOpcode hop] at h
    cases h

theorem formatSelectedBy_of_fieldsOf_eq_some {w : Word} {f : Fields} (h : fieldsOf w = some f) :
    formatSelectedBy (fieldOpcode w) f := by
  by_cases hop : supportedOpcode (fieldOpcode w)
  · obtain ⟨g, hg, hformat⟩ := fieldsOf_of_supportedOpcode hop
    cases hg.symm.trans h
    exact hformat
  · rw [fieldsOf_of_not_supportedOpcode hop] at h
    cases h

/-- R90: classifying a record drops none of its fields. -/
theorem encode_of_classify_eq_some {r : Record} {i : Instr} (hformat : formatSelectedBy r.opcode r.fields)
    (hc : classify r = some i) : encode i = repack r ∧ i.wellFormed = true := by
  obtain ⟨raw, op, fields⟩ := r
  cases fields with
  | R =>
    obtain rfl : op = 0x33#7 := hformat
    exact classifyReg_eq_some hc
  | I =>
    obtain rfl | rfl | rfl : op = 0x13#7 ∨ op = 0x03#7 ∨ op = 0x73#7 := hformat
    · exact classifyImm_eq_some hc
    · exact classifyLoad_eq_some hc
    · cases hc; exact ⟨rfl, rfl⟩
  | S =>
    obtain rfl : op = 0x23#7 := hformat
    exact classifyStore_eq_some hc
  | B =>
    obtain rfl : op = 0x63#7 := hformat
    exact classifyBranch_eq_some hc
  | U =>
    obtain rfl : op = 0x37#7 := hformat
    cases hc; exact ⟨rfl, rfl⟩
  | J =>
    obtain rfl : op = 0x6F#7 := hformat
    cases hc; exact ⟨rfl, rfl⟩

/-- Settles O8: a decoded record holds the fields its word has under the format its opcode selects. -/
theorem recordRepacksToItsWord : Obligations.RecordRepacksToItsWord := by
  intro w r h
  cases hf : fieldsOf w with
  | none => rw [decode_of_no_fields hf] at h; cases h
  | some f =>
    rw [decode_of_fields hf] at h
    cases h
    exact repack_of_fieldsOf_eq_some hf

/-- Settles O10: encoding packs the fields the word was read by, and these are all its bits. -/
theorem aReadWordIsTheEncodingOfItsInstruction : Obligations.AReadWordIsTheEncodingOfItsInstruction := by
  intro w i h
  obtain ⟨f, hf, hc⟩ := readInstr_eq_instr h
  obtain ⟨henc, hwf⟩ := encode_of_classify_eq_some (formatSelectedBy_of_fieldsOf_eq_some hf) hc
  exact ⟨henc.trans (repack_of_fieldsOf_eq_some hf), hwf⟩

/-! ### The opcode map -/

/-- The row of the opcode map an instruction belongs to (R59). -/
def rowOf (i : Instr) : Row := ⟨mnemonicOf i, (Laws.EncodesItsRow.row i).1, (Laws.EncodesItsRow.row i).2⟩

theorem rowOf_mem_opcodeMap (i : Instr) : rowOf i ∈ opcodeMap := by
  cases i <;> simp [rowOf, opcodeMap, mnemonicOf, Laws.EncodesItsRow.row]

/-- The encoding of a well-formed instruction matches its row: under the mask only the fixed fields are left. -/
theorem encode_and_mask_rowOf (i : Instr) (hwf : i.wellFormed = true) :
    encode i &&& (rowOf i).mask = (rowOf i).pattern := by
  cases i with
  | add | sub | mul | sll | slt | xor | div | srl | sra | or | rem | and => exact (wordR_and_mask ..).trans rfl
  | srli => exact Laws.EncodesItsRow.srli _ _ _ hwf
  | srai => exact Laws.EncodesItsRow.srai _ _ _ hwf
  | addi | slli | slti | xori | ori | andi | lb | lh | lw => exact (wordI_and_mask ..).trans rfl
  | sb | sh | sw | beq | bne => exact (wordS_and_mask ..).trans rfl
  | lui | jal => exact (wordU_and_mask ..).trans rfl
  | ecall => exact (wordI_and_mask_U ..).trans rfl

section MaskedWord
variable {w p : Word}

/-! A word that agrees with a pattern under a mask is the pattern's fixed fields with the word's own others. -/

theorem wordR_of_mask (h : w &&& 0xFE00707F#32 = p) :
    wordR (fieldFunct7 p) (fieldRs2 w) (fieldRs1 w) (fieldFunct3 p) (fieldRd w) (fieldOpcode p) = w := by
  obtain ⟨h7, h3, hop⟩ := fields_of_mask_R h
  rw [← h7, ← h3, ← hop, wordR_fields]

theorem wordI_of_mask (h : w &&& 0x0000707F#32 = p) :
    wordI (fieldImm12 w) (fieldRs1 w) (fieldFunct3 p) (fieldRd w) (fieldOpcode p) = w := by
  obtain ⟨h3, hop⟩ := fields_of_mask_I h
  rw [← h3, ← hop, wordI_fields]

theorem wordS_of_mask (h : w &&& 0x0000707F#32 = p) :
    wordS (fieldImmHi w) (fieldRs2 w) (fieldRs1 w) (fieldFunct3 p) (fieldImmLo w) (fieldOpcode p) = w := by
  obtain ⟨h3, hop⟩ := fields_of_mask_I h
  rw [← h3, ← hop, wordS_fields]

theorem wordU_of_mask (h : w &&& 0x0000007F#32 = p) :
    wordU (fieldImm20 w) (fieldRd w) (fieldOpcode p) = w := by
  rw [← fieldOpcode_of_mask_U h, wordU_fields]

theorem wordI_of_mask_U (h : w &&& 0x0000007F#32 = p) :
    wordI (fieldImm12 w) (fieldRs1 w) (fieldFunct3 w) (fieldRd w) (fieldOpcode p) = w := by
  rw [← fieldOpcode_of_mask_U h, wordI_fields]

theorem wordI_of_mask_shift (h : w &&& 0x4000707F#32 = p) :
    wordI (fieldImm12 w) (fieldRs1 w) (fieldFunct3 p) (fieldRd w) (fieldOpcode p) = w := by
  obtain ⟨-, h3, hop⟩ := fields_of_mask_shift h
  rw [← h3, ← hop, wordI_fields]

theorem getLsbD_ten_beq_of_mask_shift (h : w &&& 0x4000707F#32 = p) :
    ((fieldImm12 w).getLsbD 10 == (fieldImm12 p).getLsbD 10) = true :=
  beq_iff_eq.mpr (fields_of_mask_shift h).1

end MaskedWord

/-- A word that matches a row of the opcode map is the encoding of an instruction of that row, its operands
being the word's own fields. -/
theorem exists_encode_eq_of_mask {w : Word} : ∀ row ∈ opcodeMap, w &&& row.mask = row.pattern →
    ∃ i, i.wellFormed = true ∧ mnemonicOf i = row.mnemonic ∧ encode i = w := by
  simp only [opcodeMap, List.cons_append, List.nil_append, List.forall_mem_cons]
  exact ⟨fun h => ⟨.add _ _ _, rfl, rfl, (wordR_of_mask h :)⟩,
    fun h => ⟨.sub _ _ _, rfl, rfl, (wordR_of_mask h :)⟩,
    fun h => ⟨.mul _ _ _, rfl, rfl, (wordR_of_mask h :)⟩,
    fun h => ⟨.sll _ _ _, rfl, rfl, (wordR_of_mask h :)⟩,
    fun h => ⟨.slt _ _ _, rfl, rfl, (wordR_of_mask h :)⟩,
    fun h => ⟨.xor _ _ _, rfl, rfl, (wordR_of_mask h :)⟩,
    fun h => ⟨.div _ _ _, rfl, rfl, (wordR_of_mask h :)⟩,
    fun h => ⟨.srl _ _ _, rfl, rfl, (wordR_of_mask h :)⟩,
    fun h => ⟨.sra _ _ _, rfl, rfl, (wordR_of_mask h :)⟩,
    fun h => ⟨.or _ _ _, rfl, rfl, (wordR_of_mask h :)⟩,
    fun h => ⟨.rem _ _ _, rfl, rfl, (wordR_of_mask h :)⟩,
    fun h => ⟨.and _ _ _, rfl, rfl, (wordR_of_mask h :)⟩,
    fun h => ⟨.addi _ _ _, rfl, rfl, (wordI_of_mask h :)⟩,
    fun h => ⟨.slli _ _ _, rfl, rfl, (wordI_of_mask h :)⟩,
    fun h => ⟨.slti _ _ _, rfl, rfl, (wordI_of_mask h :)⟩,
    fun h => ⟨.xori _ _ _, rfl, rfl, (wordI_of_mask h :)⟩,
    fun h => ⟨.srli _ _ _, getLsbD_ten_beq_of_mask_shift h, rfl, (wordI_of_mask_shift h :)⟩,
    fun h => ⟨.srai _ _ _, getLsbD_ten_beq_of_mask_shift h, rfl, (wordI_of_mask_shift h :)⟩,
    fun h => ⟨.ori _ _ _, rfl, rfl, (wordI_of_mask h :)⟩,
    fun h => ⟨.andi _ _ _, rfl, rfl, (wordI_of_mask h :)⟩,
    fun h => ⟨.lb _ _ _, rfl, rfl, (wordI_of_mask h :)⟩,
    fun h => ⟨.lh _ _ _, rfl, rfl, (wordI_of_mask h :)⟩,
    fun h => ⟨.lw _ _ _, rfl, rfl, (wordI_of_mask h :)⟩,
    fun h => ⟨.sb _ _ _ _, rfl, rfl, (wordS_of_mask h :)⟩,
    fun h => ⟨.sh _ _ _ _, rfl, rfl, (wordS_of_mask h :)⟩,
    fun h => ⟨.sw _ _ _ _, rfl, rfl, (wordS_of_mask h :)⟩,
    fun h => ⟨.beq _ _ _ _, rfl, rfl, (wordS_of_mask h :)⟩,
    fun h => ⟨.bne _ _ _ _, rfl, rfl, (wordS_of_mask h :)⟩,
    fun h => ⟨.jal _ _, rfl, rfl, (wordU_of_mask h :)⟩,
    fun h => ⟨.lui _ _, rfl, rfl, (wordU_of_mask h :)⟩,
    fun h => ⟨.ecall _ _ _ _, rfl, rfl, (wordI_of_mask_U h :)⟩, List.forall_mem_nil _⟩

/-- Settles O11: an instruction's encoding matches its row, and a word that matches a row is an encoding. -/
theorem readingFollowsTheOpcodeMap : Obligations.ReadingFollowsTheOpcodeMap := by
  refine fun w => ⟨fun i h => ?_, fun row hrow h => ?_⟩
  · obtain ⟨rfl, hwf⟩ := aReadWordIsTheEncodingOfItsInstruction w i h
    exact ⟨rowOf i, rowOf_mem_opcodeMap i, rfl, encode_and_mask_rowOf i hwf⟩
  · obtain ⟨i, hwf, hname, rfl⟩ := exists_encode_eq_of_mask row hrow h
    exact ⟨i, readingAnEncodedInstructionGivesItBack i hwf, hname⟩

/-- Settles O12: a word of no row reads as no instruction, and of the two errors InvalidOpcode is answered
exactly when no format is selected. -/
theorem wordsThatAreNoInstructionAreRejectedByKind : Obligations.WordsThatAreNoInstructionAreRejectedByKind := by
  refine fun w hrows => ⟨fun hop => readInstr_of_no_fields (fieldsOf_of_not_supportedOpcode hop), fun hop => ?_⟩
  cases h : readInstr w with
  | instr i =>
    obtain ⟨row, hrow, -, hmatch⟩ := (readingFollowsTheOpcodeMap w).1 i h
    exact absurd hmatch (hrows row hrow)
  | invalidOpcode raw =>
    obtain ⟨f, hf, -⟩ := fieldsOf_of_supportedOpcode hop
    rw [(readInstr_eq_invalidOpcode h).2] at hf
    cases hf
  | invalidInstruction raw => rw [(readInstr_eq_invalidInstruction h).1]

/-! ### Words of the opcode table -/

theorem tableWord_toNat (w : Word) : tableWord 32 w.toNat = w := by
  rw [tableWord, Nat.mod_eq_of_lt w.isLt, BitVec.ofNat_toNat, BitVec.setWidth_eq]

theorem decodeTableWord_toNat {w : Word} {i : Instr} (h : readInstr w = .instr i) :
    decodeTableWord 32 w.toNat = some i := by
  simp only [decodeTableWord, tableWord_toNat, wordOfBytes_byteOf, h]

/-- Settles O13: the table word is the encoding, laid out in bytes and put together again. -/
theorem tableWordsDecodeToTheirInstruction : Obligations.TableWordsDecodeToTheirInstruction :=
  fun i hwf => decodeTableWord_toNat (readingAnEncodedInstructionGivesItBack i hwf)

/-- Settles O1: ten fixed words, evaluated. -/
theorem specWordsReadAsStated : Obligations.SpecWordsReadAsStated := by
  unfold Obligations.SpecWordsReadAsStated
  decide

end Sys2Proof.Proofs
end

section
/-! The statements about sign extension and offsets (40_decoder.md R80; 30_encoding.md R62 to R64). -/

namespace Sys2Proof.Proofs
open Sys2Proof Sys2Proof.Machine Sys2Proof.Claims

/-! ### sign_extend -/

theorem signExtend_of_mem {n : Nat} (h : 1 ≤ n ∧ n ≤ 32) (field : Word) :
    signExtend field n = some (sextShift field n) := if_pos h

theorem signExtend_of_not_mem {n : Nat} (h : n = 0 ∨ 32 < n) (field : Word) : signExtend field n = none :=
  if_neg (by omega)

/-- R80: the extension's integer is the low n bits read as two's complement. -/
theorem toInt_sextShift (field : Word) {n : Nat} (h1 : 1 ≤ n) (h32 : n ≤ 32) :
    (sextShift field n).toInt =
      (field.toNat % 2 ^ n : Nat) - (if field.getLsbD (n - 1) then (2 ^ n : Int) else 0) := by
  have hmsb : (field.setWidth n).msb = field.getLsbD (n - 1) := by
    rw [BitVec.msb_eq_getLsbD_last, BitVec.getLsbD_setWidth, decide_eq_true (by omega), Bool.true_and]
  rw [sextShift_eq field h1 h32, BitVec.toInt_signExtend_of_le h32, BitVec.toInt_eq_msb_cond, hmsb,
    BitVec.toNat_setWidth]
  split <;> simp

/-- Settles O2: the two shifts of R80 keep the bits below n and repeat bit n-1 above them. -/
theorem signExtendGivesTheTwosComplementValue : Obligations.SignExtendGivesTheTwosComplementValue := by
  refine fun field n => ⟨fun h => ⟨_, signExtend_of_mem h field, fun i hi => ?_, fun i hl hh => ?_, ?_⟩,
    fun h => signExtend_of_not_mem h field⟩
  · rw [getLsbD_sextShift field h.1 h.2 (by omega), if_pos hi]
  · rw [getLsbD_sextShift field h.1 h.2 hh, if_neg (by omega)]
  · exact toInt_sextShift field h.1 h.2

/-! ### The jump offset of a word -/

theorem getLsbD_zero_jumpOffset (e : BitVec 20) : (jumpOffset e).getLsbD 0 = false :=
  getLsbD_jumpOffset e (by decide)

/-- R64: the offset extends twenty-one bits and is even, so 1048575 is not reached. -/
theorem jumpOffset_bounds (e : BitVec 20) :
    -1048576 ≤ (jumpOffset e).toInt ∧ (jumpOffset e).toInt ≤ 1048574 := by
  have heven := toInt_emod_two_of_getLsbD_zero (getLsbD_zero_jumpOffset e)
  have hrange : -(2 ^ (21 - 1) : Int) ≤ (jumpOffset e).toInt ∧ (jumpOffset e).toInt < 2 ^ (21 - 1) :=
    toInt_sextShift_bounds _ (by decide) (by decide)
  omega

/-- R64 in word bits: the ten low bits from word[30:21], bit 11 from word[20], the next eight in place, then
the sign. -/
theorem getLsbD_jumpOffset_of_word (w : Word) {i : Nat} (h : i < 32) :
    (jumpOffset (w.extractLsb' 12 20)).getLsbD i =
      if i = 0 then false else if i < 11 then w.getLsbD (i + 20) else if i = 11 then w.getLsbD 20
      else if i < 20 then w.getLsbD i else w.getLsbD 31 := by
  rw [getLsbD_jumpOffset _ h]
  split_ifs <;> simp only [BitVec.getLsbD_extractLsb'] <;> grind

/-- Settles O5: the bits are those of the one field, reassembled; the range is that of twenty-one bits with
bit 0 clear. -/
theorem jumpOffsetTakesTheStatedWordBits : Obligations.JumpOffsetTakesTheStatedWordBits := by
  intro w
  refine ⟨getLsbD_zero_jumpOffset _, fun i hl hh => ?_, getLsbD_jumpOffset_of_word w (by decide),
    fun i hl hh => ?_, fun i hl hh => ?_, jumpOffset_bounds _⟩ <;>
    rw [getLsbD_jumpOffset_of_word w (by omega), if_neg (by omega)]
  · rw [if_pos (by omega)]
  · rw [if_neg (by omega), if_neg (by omega), if_pos (by omega)]
  · rw [if_neg (by omega), if_neg (by omega), if_neg (by omega)]

/-! ### Splitting an offset into fields -/

/-- In a word within the range of n bits, every bit from n-1 on is the sign. -/
theorem getLsbD_of_toInt_bounds {v : Word} {n i : Nat} (h1 : 1 ≤ n) (h32 : n ≤ 32)
    (hl : -(2 ^ (n - 1) : Int) ≤ v.toInt) (hh : v.toInt < 2 ^ (n - 1)) (hn : n - 1 ≤ i) (hi : i < 32) :
    v.getLsbD i = v.getLsbD (n - 1) := by
  rw [← sextShift_of_bounds h1 h32 hl hh, getLsbD_sextShift v h1 h32 hi,
    getLsbD_sextShift v h1 h32 (by omega)]
  grind

theorem getLsbD_zero_of_toInt_even {v : Word} (h : v.toInt % 2 = 0) : v.getLsbD 0 = false := by
  rw [getLsbD_zero_iff]
  rw [BitVec.toInt_eq_toNat_cond] at h
  split at h <;> omega

theorem storeOffset_storeFields {off : Word} (hl : -2048 ≤ off.toInt) (hh : off.toInt ≤ 2047) :
    storeOffset (storeFields off).1 (storeFields off).2 = off := by
  have hsign : ∀ i, 11 ≤ i → i < 32 → off.getLsbD i = off.getLsbD 11 := fun i =>
    getLsbD_of_toInt_bounds (n := 12) (by decide) (by decide) (by omega) (by omega)
  refine BitVec.eq_of_getLsbD_eq fun i hi => ?_
  rw [getLsbD_storeOffset _ _ hi]
  simp only [storeFields, BitVec.getLsbD_extractLsb']
  grind

theorem branchOffset_branchFields {off : Word} (heven : off.toInt % 2 = 0) (hl : -4096 ≤ off.toInt)
    (hh : off.toInt ≤ 4094) : branchOffset (branchFields off).1 (branchFields off).2 = off := by
  have hsign : ∀ i, 12 ≤ i → i < 32 → off.getLsbD i = off.getLsbD 12 := fun i =>
    getLsbD_of_toInt_bounds (n := 13) (by decide) (by decide) (by omega) (by omega)
  have hzero := getLsbD_zero_of_toInt_even heven
  refine BitVec.eq_of_getLsbD_eq fun i hi => ?_
  rw [getLsbD_branchOffset _ _ hi]
  simp only [branchFields, BitVec.getLsbD_append, BitVec.getLsbD_extractLsb']
  grind

theorem jumpOffset_jumpField {off : Word} (heven : off.toInt % 2 = 0) (hl : -1048576 ≤ off.toInt)
    (hh : off.toInt ≤ 1048574) : jumpOffset (jumpField off) = off := by
  have hsign : ∀ i, 20 ≤ i → i < 32 → off.getLsbD i = off.getLsbD 20 := fun i =>
    getLsbD_of_toInt_bounds (n := 21) (by decide) (by decide) (by omega) (by omega)
  have hzero := getLsbD_zero_of_toInt_even heven
  refine BitVec.eq_of_getLsbD_eq fun i hi => ?_
  rw [getLsbD_jumpOffset _ hi]
  simp only [jumpField, BitVec.getLsbD_append, BitVec.getLsbD_extractLsb']
  grind

/-- Settles O6: the fields hold the low bits, and in range the others are copies of the sign. -/
theorem everyAdmittedOffsetHasFields : Obligations.EveryAdmittedOffsetHasFields :=
  fun _ => ⟨fun ⟨hl, hh⟩ => storeOffset_storeFields hl hh,
    fun ⟨heven, hl, hh⟩ => branchOffset_branchFields heven hl hh,
    fun ⟨heven, hl, hh⟩ => jumpOffset_jumpField heven hl hh⟩

end Sys2Proof.Proofs
end

section
/-! The statements about reset, boot and the step (70_reset_and_hazards.md R190 to R192; 60_exceptions.md R177):
where the four bytes at pc are those of a word, the step does what that word reads as. -/

namespace Sys2Proof.Proofs
open Sys2Proof Sys2Proof.Machine Sys2Proof.Claims

/-! ### The step by its four checks (60_exceptions.md R177) -/

theorem holdsWord_readLE (m : Memory) (a : Nat) : holdsWord m a (m.readLE a 4) := fun k hk => by
  rw [← toNat_byteOf, Memory.byteOf_readLE m a 4 k hk, if_pos hk]

theorem step_of_misaligned {s : State} (hrun : s.status = .running) (halign : s.pc.toNat % 4 ≠ 0) :
    step s = raise .misalignedFetch s.pc s := by
  simp only [step_of_running hrun, stepRunning, fetch_of_misaligned halign]

theorem step_of_outOfBounds {s : State} (hrun : s.status = .running) (halign : s.pc.toNat % 4 = 0)
    (hbound : s.params.memSize < s.pc.toNat + 4) : step s = raise .outOfBounds s.pc s := by
  simp only [step_of_running hrun, stepRunning, fetch_of_outOfBounds halign hbound]

theorem step_of_invalidInstruction {s : State} {w : Word} (hrun : s.status = .running)
    (halign : s.pc.toNat % 4 = 0) (hbound : s.pc.toNat + 4 ≤ s.params.memSize)
    (hword : s.mem.readLE s.pc.toNat 4 = w) (hread : readInstr w = .invalidInstruction w) :
    step s = raise .invalidInstruction w s := by
  rw [step_of_fetch hrun halign hbound, hword, hread]

/-- Settles O16: the fetch reads the word, and the step executes what it reads as. -/
theorem stepRunsTheDecodedInstruction : Obligations.StepRunsTheDecodedInstruction := by
  intro s w i hrun halign hbound hholds hread
  rw [step_of_fetch hrun halign hbound, readLE_of_holdsWord hholds, hread]

/-- Settles O18: each check is reached when those before it pass, and raises its error. -/
theorem fetchAndDecodeErrorsComeInTheStatedOrder : Obligations.FetchAndDecodeErrorsComeInTheStatedOrder :=
  fun _ _ hrun => ⟨step_of_misaligned hrun, step_of_outOfBounds hrun,
    fun halign hbound hholds hread =>
      step_of_invalidOpcode hrun halign hbound (readLE_of_holdsWord hholds) hread,
    fun halign hbound hholds hread =>
      step_of_invalidInstruction hrun halign hbound (readLE_of_holdsWord hholds) hread⟩

/-- A running machine over the encoding of a well-formed instruction executes it. -/
theorem step_of_holdsWord_encode {s : State} {i : Instr} (hrun : s.status = .running)
    (halign : s.pc.toNat % 4 = 0) (hbound : s.pc.toNat + 4 ≤ s.params.memSize)
    (hholds : holdsWord s.mem s.pc.toNat (encode i)) (hwf : i.wellFormed = true) : step s = exec i s :=
  stepRunsTheDecodedInstruction s (encode i) i hrun halign hbound hholds
    (readingAnEncodedInstructionGivesItBack i hwf)

/-! ### Reset -/

theorem readReg_resetWith (p : Params) (r : RegIdx) : (State.resetWith p).readReg r = 0 := by
  simp [State.readReg, State.resetWith]

/-- Settles O14: registers and memory are zero, and the other fields are as given. -/
theorem resetStateHasTheStatedValues : Obligations.ResetStateHasTheStatedValues :=
  ⟨fun p => ⟨readReg_resetWith p, rfl, fun _ => rfl, rfl, rfl, rfl⟩, rfl⟩

/-! ### Loading words -/

/-- Loading words changes memory only. -/
theorem exists_loadWords_eq_setMem (s : State) (a : Nat) (ws : List Word) :
    ∃ m, s.loadWords a ws = s.setMem m := by
  obtain ⟨m, hm, -⟩ := loadWords_eq s a ws
  exact ⟨m, hm⟩

theorem holdsWord_loadWords {s : State} (hwf : s.mem.wf) {a : Nat} {ws : List Word}
    (hfits : a + 4 * ws.length ≤ s.params.memSize) {k : Nat} (hk : k < ws.length) :
    holdsWord (s.loadWords a ws).mem (a + 4 * k) ws[k] := by
  intro j hj
  rw [readByte_loadWords hwf hfits, dif_pos (by omega), toNat_byteOf]
  simp only [show (a + 4 * k + j - a) / 4 = k by omega, show (a + 4 * k + j - a) % 4 = j by omega]

/-- Settles O17: loading the word changes memory only, so the machine is still running at the same pc, now
over the instruction's encoding. -/
theorem aFetchWordIsTheNextInstructionRun : Obligations.AFetchWordIsTheNextInstructionRun := by
  intro s i hcanon hrun halign hbound hwf
  have hholds : holdsWord (s.loadWords s.pc.toNat [encode i]).mem s.pc.toNat (encode i) :=
    holdsWord_loadWords (ws := [encode i]) hcanon hbound Nat.one_pos
  rw [State.withFetchWord, tableWord_toNat]
  obtain ⟨m, hm⟩ := exists_loadWords_eq_setMem s s.pc.toNat [encode i]
  rw [hm] at hholds ⊢
  exact ⟨step_of_holdsWord_encode hrun halign hbound hholds hwf, fun r => State.readReg_setMem s r m⟩

theorem boot_without_data (p : Params) (program : List Word) :
    State.boot p program 0 [] = (State.resetWith p).loadWords p.entryPc.toNat program := rfl

/-- Settles O15: from reset, loading the program changes no byte but its own and nothing but memory. -/
theorem bootPlacesTheProgram : Obligations.BootPlacesTheProgram := by
  intro p program hfits
  rw [boot_without_data]
  have hwf : (State.resetWith p).mem.wf := Memory.wf_nil
  refine ⟨fun k hk => holdsWord_loadWords hwf hfits hk, fun a ha => ?_, ?_⟩
  · rw [readByte_loadWords hwf hfits, dif_neg (by omega)]
    rfl
  · obtain ⟨m, hm⟩ := exists_loadWords_eq_setMem (State.resetWith p) p.entryPc.toNat program
    rw [hm]
    exact ⟨readReg_resetWith p, rfl, rfl, rfl, rfl⟩

end Sys2Proof.Proofs
end

section
/-! The statements about every instruction and every step (10_state.md R14, R17, R23, R24; 60_exceptions.md R170,
R178, R180): each is read off what executing an instruction can do (`Effect`) and what a step can do (`StepCase`). -/

namespace Sys2Proof.Proofs
open Sys2Proof Sys2Proof.Machine Sys2Proof.Claims

theorem effect_of_exec {i : Instr} {s t : State} (h : exec i s = .next t) : Effect i s t := by
  obtain ⟨t', ht', heffect⟩ := exec_effect i s
  cases h.symm.trans ht'
  exact heffect

/-- Settles O21: every effect is a next state. -/
theorem everyInstructionAnswersANextState : Obligations.EveryInstructionAnswersANextState := by
  intro i s
  obtain ⟨t, ht, -⟩ := exec_effect i s
  exact ⟨t, ht⟩

/-! ### What each effect does to one field of the state -/

section FieldsOfAnEffect
variable {i : Instr} {s t : State}

theorem params_of_effect (h : Effect i s t) : t.params = s.params := by
  cases h with
  | writes | links => simp
  | _ => rfl

theorem readReg_of_effect (h : Effect i s t) {r : RegIdx} (hr : destOf i ≠ some r) :
    t.readReg r = s.readReg r := by
  cases h with
  | writes rd v hd =>
    have hne : r ≠ rd := by rintro rfl; exact hr hd
    rw [State.readReg_advance, State.readReg_writeReg_of_ne _ _ hne]
  | links rd imm hi =>
    have hne : r ≠ rd := by rintro rfl; subst hi; exact hr rfl
    rw [State.readReg_setPc, State.readReg_writeReg_of_ne _ _ hne]
  | _ => rfl

theorem mem_of_effect (h : Effect i s t) : t.mem = s.mem ∨
    ∃ a w v, storeOf s i = some (a, w, v) ∧ t.mem = s.mem.writeLE a.toNat (widthBytes w) v := by
  cases h with
  | writes | links => exact .inl (by simp)
  | stores a w v hs => exact .inr ⟨a, w, v, hs, rfl⟩
  | _ => exact .inl rfl

theorem console_of_effect (h : Effect i s t) : t.console = s.console ∨
    ∃ bytes, t.console = s.console ++ bytes ∧ isEcall i = true ∧
      (s.readReg regA0 = 1 ∨ s.readReg regA0 = 4 ∨ s.readReg regA0 = 11) := by
  cases h with
  | writes | links => exact .inl (by simp)
  | prints bytes he hn => exact .inr ⟨bytes, rfl, he, hn⟩
  | _ => exact .inl rfl

/-- An instruction lets the machine go on, or changes its status to one that can occur and nothing else. -/
theorem status_of_effect (h : Effect i s t) :
    t.status = s.status ∨ ∃ st, t = s.setStatus st ∧ statusPossible s.params st = true := by
  cases h with
  | writes | links => exact .inl (by simp)
  | branches | falls | stores | prints => exact .inl rfl
  | halts | leavesMemory | callsUnknown => exact .inr ⟨_, rfl, rfl⟩
  | dividesBadly _ _ _ hp => exact .inr ⟨_, rfl, decide_eq_true hp⟩

theorem pc_of_effect (h : Effect i s t) :
    t.pc = s.pc + 4 ∨ (∃ off, offsetOf i = some off ∧ t.pc = s.pc + off) ∨ t.status ≠ .running := by
  cases h with
  | writes => exact .inl (by simp)
  | links rd imm hi => exact .inr (.inl ⟨jumpOffset imm, hi ▸ rfl, rfl⟩)
  | branches off _ ho => exact .inr (.inl ⟨off, ho, rfl⟩)
  | falls | stores | prints => exact .inl rfl
  | halts | leavesMemory | dividesBadly | callsUnknown => exact .inr (.inr Status.noConfusion)

end FieldsOfAnEffect

/-- Settles O25: no effect writes a register but the destination, and none the parameters. -/
theorem onlyTheDestinationRegisterChanges : Obligations.OnlyTheDestinationRegisterChanges :=
  fun _ _ _ _ h => ⟨readReg_of_effect (effect_of_exec h), params_of_effect (effect_of_exec h)⟩

/-- Settles O26: memory changes only by the store's own little-endian write. -/
theorem onlyStoresChangeMemory : Obligations.OnlyStoresChangeMemory := by
  intro i s t hwf h
  obtain hmem | ⟨a, w, v, hstore, hmem⟩ := mem_of_effect (effect_of_exec h)
  · exact ⟨fun _ b => by rw [hmem], fun _ _ _ _ b _ => by rw [hmem]⟩
  · refine ⟨fun hnone => ?_, fun a' w' v' hsome b hb => ?_⟩
    · rw [hnone] at hstore; cases hstore
    · cases hstore.symm.trans hsome
      rw [hmem, Memory.readByte_writeLE hwf, if_neg (by omega)]

/-- Settles O27: only the effect that prints touches the console, at its end. -/
theorem onlyEcallAppendsToTheConsole : Obligations.OnlyEcallAppendsToTheConsole := by
  intro i s t h
  obtain hsame | ⟨bytes, happend, hecall⟩ := console_of_effect (effect_of_exec h)
  · exact ⟨⟨[], by rw [hsame, List.append_nil]⟩, fun hne => absurd hsame hne⟩
  · exact ⟨⟨bytes, happend⟩, fun _ => hecall⟩

/-- Settles O24: an effect moves pc by 4, by the offset, or ends the run. -/
theorem pcAdvancesByFourOrByTheOffset : Obligations.PcAdvancesByFourOrByTheOffset := by
  intro i s t hrun h hgoes
  obtain hnext | hoffset | hends := pc_of_effect (effect_of_exec h)
  · exact .inl hnext
  · exact .inr hoffset
  · exact absurd hgoes hends

/-! ### The end of a run -/

/-- A step lets the machine go on, or changes its status to one that can occur and nothing else. -/
theorem status_of_step {s t : State} (h : step s = .next t) :
    t.status = .running ∨ ∃ st, t = s.setStatus st ∧ statusPossible s.params st = true := by
  obtain ⟨hrun, hcase⟩ := step_case h
  cases hcase with
  | executes w t _ _ _ i _ _ heffect => rw [← hrun]; exact status_of_effect heffect
  | misaligned | outside | badOpcode | badInstruction => exact .inr ⟨_, rfl, rfl⟩

/-- Settles O22: what ends a run is a change of status, and the only code that can occur is 0. -/
theorem endingChangesTheStatusOnly : Obligations.EndingChangesTheStatusOnly := by
  intro s t h hends
  obtain hruns | ⟨st, rfl, hpossible⟩ := status_of_step h
  · exact absurd hruns hends
  · refine ⟨rfl, fun code hcode => ?_⟩
    obtain rfl : st = .halted code := hcode
    exact beq_iff_eq.mp hpossible

/-- Settles O20: a step exists only while the machine is running, so a longer run than none stops at once. -/
theorem noInstructionExecutesAfterTheEnd : Obligations.NoInstructionExecutesAfterTheEnd := by
  intro s hended
  have hstep : ∀ t, step s ≠ .next t := fun t h => hended (step_next h).1
  refine ⟨hstep, fun n t h => ?_⟩
  cases n with
  | zero => cases h; rfl
  | succ n =>
    rw [run_succ] at h
    split at h
    · exact absurd ‹_› (hstep _)
    · cases h
    · cases h

/-! ### The causes of errors -/

/-- The causes of an error an instruction can raise (R170, R177 lines 5 and on). -/
theorem cause_of_effect {i : Instr} {s t : State} (hrun : s.status = .running) (h : Effect i s t)
    {kind : ErrorKind} {info : Word} (hstatus : t.status = .fatal kind info) :
    (kind = .outOfBounds ∧ ∃ width, accessOf s i = some (info, width) ∧
      s.params.memSize < info.toNat + widthBytes width) ∨
    (kind = .illegalSyscall ∧ isEcall i = true ∧ info = s.readReg 10 ∧
      info ≠ 1 ∧ info ≠ 4 ∧ info ≠ 10 ∧ info ≠ 11) ∨
    (kind = .arithmeticFault ∧ info = encode i ∧ s.params.divCorner = .fatal ∧
      ∃ a b, divisionOf s i = some (a, b) ∧ (b = 0 ∨ (a = 0x80000000#32 ∧ b = 0xFFFFFFFF#32))) := by
  cases h with
  | leavesMemory a w ha hb =>
    cases hstatus
    have hbound := mt (inBounds_iff s info w).mpr (by rw [hb]; exact Bool.false_ne_true)
    exact .inl ⟨rfl, w, ha, Nat.not_le.mp hbound⟩
  | callsUnknown he hn =>
    cases hstatus
    exact .inr (.inl ⟨rfl, he, rfl, hn⟩)
  | dividesBadly a b hd hp hc =>
    cases hstatus
    exact .inr (.inr ⟨rfl, rfl, hp, a, b, hd, (divCornerCase_iff a b).mp hc⟩)
  | halts => cases hstatus
  | writes | links => simp [hrun] at hstatus
  | branches | falls | stores | prints => cases hrun.symm.trans hstatus

/-- Settles O23: each way a step can end in an error is one of the stated causes. -/
theorem stepErrorsHaveTheStatedCauses : Obligations.StepErrorsHaveTheStatedCauses := by
  intro s t kind info h hstatus
  obtain ⟨hrun, hcase⟩ := step_case h
  cases hcase with
  | misaligned halign =>
    cases hstatus
    exact .inl ⟨rfl, rfl, halign⟩
  | outside _ hbound =>
    cases hstatus
    exact .inr (.inl ⟨rfl, rfl, hbound⟩)
  | badOpcode w halign hbound hword hread =>
    cases hstatus
    exact .inr (.inr ⟨info, halign, hbound, hword ▸ holdsWord_readLE _ _, .inl ⟨rfl, rfl, hread⟩⟩)
  | badInstruction w halign hbound hword hread =>
    cases hstatus
    exact .inr (.inr ⟨info, halign, hbound, hword ▸ holdsWord_readLE _ _, .inr (.inl ⟨rfl, rfl, hread⟩)⟩)
  | executes w t halign hbound hword i hread _ heffect =>
    have hcause := cause_of_effect hrun heffect hstatus
    rw [(aReadWordIsTheEncodingOfItsInstruction w i hread).1] at hcause
    exact .inr (.inr ⟨w, halign, hbound, hword ▸ holdsWord_readLE _ _, .inr (.inr ⟨i, hread, hcause⟩)⟩)

/-! ### Instructions whose destination is the hard-wired register -/

theorem destOf_eq_none_of_storeOf {i : Instr} {s : State} {a v : Word} {w : Width}
    (h : storeOf s i = some (a, w, v)) : destOf i = none := by
  cases i with
  | sb | sh | sw => rfl
  | _ => cases h

theorem destOf_eq_none_of_isEcall {i : Instr} (h : isEcall i = true) : destOf i = none := by
  cases i with
  | ecall => rfl
  | _ => cases h

theorem hardwired_zero {s : State} (h : s.params.zeroRegHardwired = true) : s.hardwired 0 = true := by
  simp [State.hardwired, h]

/-- Settles O29: the effects on a destination are the write, the link and two errors; the first two leave the
hard-wired register alone and the errors are excluded. -/
theorem aWriteToHardwiredZeroIsDiscarded : Obligations.AWriteToHardwiredZeroIsDiscarded := by
  intro i s hzero
  refine ⟨State.readReg_hardwired (hardwired_zero hzero), fun hdest haccess hdivision => ?_⟩
  obtain ⟨t, ht, heffect⟩ := exec_effect i s
  cases heffect with
  | writes rd v hd ho =>
    obtain rfl : rd = 0 := Option.some.inj (hd.symm.trans hdest)
    rw [State.writeReg_hardwired (hardwired_zero hzero)] at ht
    rw [ho]
    exact movesOnly_of_exec_eq_setPc ht
  | links rd imm hi =>
    subst hi
    obtain rfl : rd = 0 := Option.some.inj hdest
    rw [State.writeReg_hardwired (hardwired_zero hzero)] at ht
    exact movesOnly_of_exec_eq_setPc ht
  | leavesMemory a w ha hb =>
    rw [(inBounds_iff s a w).mpr (haccess a w ha)] at hb
    cases hb
  | dividesBadly a b hd hp hc =>
    obtain ⟨hb, hoverflow⟩ := hdivision a b hd hp
    exact absurd ((divCornerCase_iff a b).mp hc) (not_or.mpr ⟨hb, hoverflow⟩)
  | branches _ hd | falls _ hd => cases hd.symm.trans hdest
  | stores _ _ _ hs => cases (destOf_eq_none_of_storeOf hs).symm.trans hdest
  | prints _ he | halts he | callsUnknown he => cases (destOf_eq_none_of_isEcall he).symm.trans hdest

end Sys2Proof.Proofs
end

section
/-! The statement that the console cannot be read back (10_state.md R23): every operation does and prints the same
whatever the console holds, and so does the step built from them. -/

namespace Sys2Proof.Proofs
open Sys2Proof Sys2Proof.Machine Sys2Proof.Claims

/-- The state with another console. -/
def withConsole (s : State) (c : List Byte) : State := { s with console := c }

/-! ### Nothing an operation looks at, and no update but that of the console, sees the console -/

section WithConsole
variable (s : State) (c : List Byte)

@[simp] theorem withConsole_params : (withConsole s c).params = s.params := rfl
@[simp] theorem withConsole_pc : (withConsole s c).pc = s.pc := rfl
@[simp] theorem withConsole_mem : (withConsole s c).mem = s.mem := rfl
@[simp] theorem readReg_withConsole (r : RegIdx) : (withConsole s c).readReg r = s.readReg r := rfl
@[simp] theorem hardwired_withConsole (r : RegIdx) : (withConsole s c).hardwired r = s.hardwired r := rfl
@[simp] theorem inBounds_withConsole (a : Word) (w : Width) : (withConsole s c).inBounds a w = s.inBounds a w := rfl
@[simp] theorem loadAddress_withConsole (rs1 : RegIdx) (imm : BitVec 12) :
    (withConsole s c).loadAddress rs1 imm = s.loadAddress rs1 imm := rfl
@[simp] theorem storeAddress_withConsole (rs1 : RegIdx) (immLo : BitVec 5) (immHi : BitVec 7) :
    (withConsole s c).storeAddress rs1 immLo immHi = s.storeAddress rs1 immLo immHi := rfl
@[simp] theorem cstring_withConsole (a : Word) : (withConsole s c).cstring a = s.cstring a := rfl
@[simp] theorem fetch_withConsole : (withConsole s c).fetch = s.fetch := rfl

@[simp] theorem setPc_withConsole (pc : Word) : (withConsole s c).setPc pc = withConsole (s.setPc pc) c := rfl
@[simp] theorem advance_withConsole : (withConsole s c).advance = withConsole s.advance c := rfl
@[simp] theorem setMem_withConsole (m : Memory) : (withConsole s c).setMem m = withConsole (s.setMem m) c := rfl
@[simp] theorem setStatus_withConsole (st : Status) :
    (withConsole s c).setStatus st = withConsole (s.setStatus st) c := rfl

@[simp] theorem writeReg_withConsole (rd : RegIdx) (v : Word) :
    (withConsole s c).writeReg rd v = withConsole (s.writeReg rd v) c := by
  cases h : s.hardwired rd with
  | true => rw [State.writeReg_hardwired h, State.writeReg_hardwired (by simpa using h)]
  | false => simp only [State.writeReg, hardwired_withConsole, h]; rfl

end WithConsole

/-! ### Operations and instructions -/

/-- From `s` the operation answers a next state and appends some bytes, and from `s` with console `c` it answers
the same state with those bytes appended to `c`. -/
def PrintsAlike (f : State → Result) (s : State) (c : List Byte) : Prop :=
  ∃ bytes t, f s = .next t ∧ t.console = s.console ++ bytes ∧
    f (withConsole s c) = .next (withConsole t (c ++ bytes))

/-- An operation that prints nothing. -/
theorem printsAlike_of_console_eq {f : State → Result} {s t : State} {c : List Byte} (hs : f s = .next t)
    (hconsole : t.console = s.console) (hc : f (withConsole s c) = .next (withConsole t c)) : PrintsAlike f s c :=
  ⟨[], t, hs, by rw [hconsole, List.append_nil], by rw [hc, List.append_nil]⟩

/-- An operation that is `g` on this state, with whatever console, is alike when `g` is. -/
theorem PrintsAlike.congr {f g : State → Result} {s : State} {c : List Byte} (h : PrintsAlike g s c)
    (hs : f s = g s) (hc : f (withConsole s c) = g (withConsole s c)) : PrintsAlike f s c := by
  obtain ⟨bytes, t, ht, happend, halike⟩ := h
  exact ⟨bytes, t, hs.trans ht, happend, hc.trans halike⟩

section OperationsAlike
variable (s : State) (c : List Byte)

theorem writeBack_printsAlike (rd : RegIdx) (v : Word) : PrintsAlike (writeBack rd v) s c :=
  printsAlike_of_console_eq rfl (by simp) (by simp)

theorem raise_printsAlike (kind : ErrorKind) (info : Word) : PrintsAlike (raise kind info) s c :=
  printsAlike_of_console_eq rfl rfl rfl

theorem halt_printsAlike (code : Word) : PrintsAlike (halt code) s c := printsAlike_of_console_eq rfl rfl rfl

theorem print_printsAlike (bytes : List Byte) : PrintsAlike (print bytes) s c := ⟨bytes, _, rfl, rfl, rfl⟩

theorem execReg_printsAlike (op : AluOp) (rd rs1 rs2 : RegIdx) : PrintsAlike (execReg op rd rs1 rs2) s c :=
  (writeBack_printsAlike s c rd (alu op (s.readReg rs1) (s.readReg rs2))).congr rfl (by simp [execReg])

theorem execImm_printsAlike (op : AluOp) (rd rs1 : RegIdx) (imm : BitVec 12) :
    PrintsAlike (execImm op rd rs1 imm) s c :=
  (writeBack_printsAlike s c rd (alu op (s.readReg rs1) (sext12 imm))).congr rfl (by simp [execImm])

theorem execShiftImm_printsAlike (op : AluOp) (rd rs1 : RegIdx) (imm : BitVec 12) :
    PrintsAlike (execShiftImm op rd rs1 imm) s c :=
  (writeBack_printsAlike s c rd (alu op (s.readReg rs1) (shamt imm))).congr rfl (by simp [execShiftImm])

theorem execDivision_printsAlike (op : AluOp) (word : Word) (rd rs1 rs2 : RegIdx) :
    PrintsAlike (execDivision op word rd rs1 rs2) s c := by
  by_cases h : s.params.divCorner = .fatal ∧ divCornerCase (s.readReg rs1) (s.readReg rs2) = true
  · exact (raise_printsAlike s c _ word).congr (if_pos h) (if_pos (by simpa using h))
  · exact (execReg_printsAlike s c op rd rs1 rs2).congr (if_neg h) (if_neg (by simpa using h))

theorem execBranch_printsAlike (cond : Cond) (rs1 rs2 : RegIdx) (immLo : BitVec 5) (immHi : BitVec 7) :
    PrintsAlike (execBranch cond rs1 rs2 immLo immHi) s c := by
  by_cases h : taken cond (s.readReg rs1) (s.readReg rs2) = true
  · refine printsAlike_of_console_eq (t := s.setPc (s.pc + branchOffset immLo immHi)) ?_ ?_ ?_ <;>
      simp [execBranch, h]
  · refine printsAlike_of_console_eq (t := s.advance) ?_ ?_ ?_ <;> simp [execBranch, h]

theorem execJal_printsAlike (rd : RegIdx) (imm : BitVec 20) : PrintsAlike (execJal rd imm) s c :=
  printsAlike_of_console_eq rfl (by simp) (by simp [execJal])

theorem execLoad_printsAlike (w : Width) (rd rs1 : RegIdx) (imm : BitVec 12) :
    PrintsAlike (execLoad w rd rs1 imm) s c := by
  cases h : s.inBounds (s.loadAddress rs1 imm) w with
  | true =>
    refine printsAlike_of_console_eq (execLoad_of_inBounds h rd) (by simp) ?_
    rw [execLoad_of_inBounds (by simpa using h)]
    simp
  | false =>
    refine printsAlike_of_console_eq (execLoad_of_not_inBounds h rd) rfl ?_
    rw [execLoad_of_not_inBounds (by simpa using h)]
    simp

theorem execStore_printsAlike (w : Width) (rs1 rs2 : RegIdx) (immLo : BitVec 5) (immHi : BitVec 7) :
    PrintsAlike (execStore w rs1 rs2 immLo immHi) s c := by
  cases h : s.inBounds (s.storeAddress rs1 immLo immHi) w with
  | true =>
    refine printsAlike_of_console_eq (execStore_of_inBounds h rs2) rfl ?_
    rw [execStore_of_inBounds (by simpa using h)]
    simp
  | false =>
    refine printsAlike_of_console_eq (execStore_of_not_inBounds h rs2) rfl ?_
    rw [execStore_of_not_inBounds (by simpa using h)]
    simp

theorem syscall_printsAlike (n : Word) : PrintsAlike (syscall n) s c := by
  by_cases h1 : n = 1
  · exact (print_printsAlike s c _).congr (if_pos h1) (if_pos h1)
  by_cases h4 : n = 4
  · exact (print_printsAlike s c (s.cstring (s.readReg regA1))).congr (by simp [syscall, h4]) (by simp [syscall, h4])
  by_cases h10 : n = 10
  · exact (halt_printsAlike s c 0).congr (by simp [syscall, h10]) (by simp [syscall, h10])
  by_cases h11 : n = 11
  · exact (print_printsAlike s c [(s.readReg regA1).setWidth 8]).congr (by simp [syscall, h11])
      (by simp [syscall, h11])
  · exact (raise_printsAlike s c _ n).congr (syscall_of_unknown h1 h4 h10 h11 _) (syscall_of_unknown h1 h4 h10 h11 _)

/-- Executing an instruction does and prints the same whatever the console holds. -/
theorem exec_printsAlike (i : Instr) : PrintsAlike (exec i) s c := by
  cases i with
  | add | sub | mul | sll | slt | xor | srl | sra | or | and => exact execReg_printsAlike s c _ _ _ _
  | div | rem => exact execDivision_printsAlike s c _ _ _ _ _
  | addi | slti | xori | ori | andi => exact execImm_printsAlike s c _ _ _ _
  | slli | srli | srai => exact execShiftImm_printsAlike s c _ _ _ _
  | lui => exact writeBack_printsAlike s c _ _
  | beq | bne => exact execBranch_printsAlike s c _ _ _ _ _
  | jal => exact execJal_printsAlike s c _ _
  | lb | lh | lw => exact execLoad_printsAlike s c _ _ _ _
  | sb | sh | sw => exact execStore_printsAlike s c _ _ _ _ _
  | ecall => exact (syscall_printsAlike s c (s.readReg regA0)).congr rfl (by simp [exec, execEcall])

/-- A running machine's step, whose checks do not look at the console either. -/
theorem stepRunning_printsAlike : PrintsAlike stepRunning s c := by
  cases hfetch : s.fetch with
  | error kind =>
    exact (raise_printsAlike s c kind s.pc).congr (by simp [stepRunning, hfetch]) (by simp [stepRunning, hfetch])
  | ok word =>
    cases hread : readInstr word with
    | invalidOpcode raw =>
      exact (raise_printsAlike s c .invalidOpcode raw).congr (by simp [stepRunning, hfetch, hread])
        (by simp [stepRunning, hfetch, hread])
    | invalidInstruction raw =>
      exact (raise_printsAlike s c .invalidInstruction raw).congr (by simp [stepRunning, hfetch, hread])
        (by simp [stepRunning, hfetch, hread])
    | instr i =>
      exact (exec_printsAlike s c i).congr (by simp [stepRunning, hfetch, hread])
        (by simp [stepRunning, hfetch, hread])

end OperationsAlike

/-- Settles O28: the step of a running machine is alike whatever the console holds. -/
theorem theConsoleCannotBeReadBack : Obligations.TheConsoleCannotBeReadBack := by
  intro s t c h
  obtain ⟨hrun, hstep⟩ := step_next h
  obtain ⟨bytes, t', ht', happend, halike⟩ := stepRunning_printsAlike s c
  cases hstep.symm.trans ht'
  exact ⟨bytes, happend, (step_of_running (s := withConsole s c) hrun).trans halike⟩

end Sys2Proof.Proofs
end

section
/-! The statements about the machine's invariant (10_state.md R12, R18; 20_memory.md R30; 60_exceptions.md R170,
R180): every state update an effect is made of keeps it, and reset and boot establish it. -/

namespace Sys2Proof.Proofs
open Sys2Proof Sys2Proof.Machine Sys2Proof.Claims

/-! ### Evenness of pc -/

theorem getLsbD_zero_add {a b : Word} (ha : a.getLsbD 0 = false) (hb : b.getLsbD 0 = false) :
    (a + b).getLsbD 0 = false := by
  rw [getLsbD_zero_iff] at ha hb ⊢
  rw [BitVec.toNat_add]
  omega

/-- R18: branch and jump offsets are even. -/
theorem getLsbD_zero_offsetOf {i : Instr} {off : Word} (h : offsetOf i = some off) : off.getLsbD 0 = false := by
  cases i with
  | beq | bne =>
    rw [← Option.some.inj h]
    exact getLsbD_zero_branchOffset _ _
  | jal =>
    rw [← Option.some.inj h]
    exact getLsbD_zero_jumpOffset _
  | _ => cases h

/-! ### The state updates -/

section Updates
variable {s : State} (h : s.Inv)
include h

theorem inv_setStatus {st : Status} (hst : statusPossible s.params st = true) : (s.setStatus st).Inv :=
  ⟨h.params, h.canonical, h.bounded, h.zero, h.pcEven, hst⟩

theorem inv_setPc {pc : Word} (hpc : pc.getLsbD 0 = false) : (s.setPc pc).Inv :=
  ⟨h.params, h.canonical, h.bounded, h.zero, hpc, h.status⟩

theorem inv_advance : s.advance.Inv := inv_setPc h (getLsbD_zero_add h.pcEven (by decide))

theorem inv_setMem {m : Memory} (hcanon : m.wf) (hbound : ∀ c ∈ m, c.1 < s.params.memSize) : (s.setMem m).Inv :=
  ⟨h.params, hcanon, hbound, h.zero, h.pcEven, h.status⟩

theorem inv_consoleWrite (bytes : List Byte) : (s.consoleWrite bytes).Inv :=
  ⟨h.params, h.canonical, h.bounded, h.zero, h.pcEven, h.status⟩

/-- R12: a write to the hard-wired register is discarded, and any other leaves x[0] alone. -/
theorem inv_writeReg (rd : RegIdx) (v : Word) : (s.writeReg rd v).Inv := by
  cases hhard : s.hardwired rd with
  | true => rw [State.writeReg_hardwired hhard]; exact h
  | false =>
    rw [State.writeReg, if_neg (by rw [hhard]; exact Bool.false_ne_true)]
    refine ⟨h.params, h.canonical, h.bounded, fun hzero => ?_, h.pcEven, h.status⟩
    have hne : rd.toNat ≠ 0 := fun h0 => by
      obtain rfl : rd = 0 := BitVec.eq_of_toNat_eq h0
      cases (hardwired_zero hzero).symm.trans hhard
    simpa [hne] using h.zero hzero

/-- An effect is made of these updates, with a store inside memory and a status that can occur. -/
theorem inv_of_effect {i : Instr} {t : State} (heffect : Effect i s t) : t.Inv := by
  cases heffect with
  | writes rd v => exact inv_advance (inv_writeReg h rd v)
  | links rd imm =>
    exact inv_setPc (inv_writeReg h rd _) (getLsbD_zero_add h.pcEven (getLsbD_zero_jumpOffset imm))
  | branches off _ ho => exact inv_setPc h (getLsbD_zero_add h.pcEven (getLsbD_zero_offsetOf ho))
  | falls => exact inv_advance h
  | stores a w v _ hb =>
    exact inv_advance (inv_setMem h (Memory.wf_writeLE h.canonical _ _ _)
      (Memory.bounded_writeLE h.bounded ((inBounds_iff s a w).mp hb) v))
  | prints bytes => exact inv_advance (inv_consoleWrite h bytes)
  | halts | leavesMemory | callsUnknown => exact inv_setStatus h rfl
  | dividesBadly _ _ _ hp => exact inv_setStatus h (decide_eq_true hp)

end Updates

/-- Settles O58: a step raises one of the errors of the fetch and the decoder, or has an instruction's effect. -/
theorem everyStepKeepsTheInvariant : Obligations.EveryStepKeepsTheInvariant := by
  intro s t h hstep
  obtain ⟨-, hcase⟩ := step_case hstep
  cases hcase with
  | misaligned | outside | badOpcode | badInstruction => exact inv_setStatus h rfl
  | executes _ _ _ _ _ _ _ _ heffect => exact inv_of_effect h heffect

/-! ### Reset, boot and what is reached from there -/

/-- Settles O56: memory and registers are empty, and ENTRY_PC is a multiple of 4. -/
theorem resetMeetsTheInvariant : Obligations.ResetMeetsTheInvariant := by
  intro p hp
  refine ⟨hp, Memory.wf_nil, fun c hc => absurd hc List.not_mem_nil, fun _ => Vector.getElem_replicate _, ?_, rfl⟩
  obtain ⟨-, -, halign, -⟩ := hp
  refine (getLsbD_zero_iff _).mpr ?_
  change p.entryPc.toNat % 2 = 0
  omega

/-- Settles O57: loading replaces memory by another that is canonical and inside MEM_SIZE. -/
theorem bootMeetsTheInvariant : Obligations.BootMeetsTheInvariant := by
  intro p program dataAt data hp
  have hreset := resetMeetsTheInvariant p hp
  obtain ⟨m, hm, hcanon, hbound⟩ := loadWords_eq (State.resetWith p) p.entryPc.toNat program
  have hprogram := inv_setMem hreset (hcanon hreset.canonical) (hbound hreset.bounded)
  rw [← hm] at hprogram
  obtain ⟨m', hm', hcanon', hbound'⟩ :=
    loadBytes_eq ((State.resetWith p).loadWords p.entryPc.toNat program) dataAt data
  rw [State.boot, hm']
  exact inv_setMem hprogram (hcanon' hprogram.canonical) (hbound' hprogram.bounded)

theorem params_boot (p : Params) (program : List Word) (dataAt : Nat) (data : List Byte) :
    (State.boot p program dataAt data).params = p := by
  obtain ⟨m, hm, -⟩ := loadWords_eq (State.resetWith p) p.entryPc.toNat program
  obtain ⟨m', hm', -⟩ := loadBytes_eq ((State.resetWith p).loadWords p.entryPc.toNat program) dataAt data
  rw [State.boot, hm', State.setMem_params, hm, State.setMem_params]
  rfl

theorem params_of_step {s t : State} (h : step s = .next t) : t.params = s.params := by
  obtain ⟨-, hcase⟩ := step_case h
  cases hcase with
  | misaligned | outside | badOpcode | badInstruction => rfl
  | executes _ _ _ _ _ _ _ _ heffect => exact params_of_effect heffect

theorem ending_of_statusPossible {t : State} (h : statusPossible t.params t.status = true) :
    t.status = .running ∨ endsWell t ∨ endsBadly t := by
  cases hst : t.status with
  | running => exact .inl rfl
  | halted code =>
    rw [hst] at h
    exact .inr (.inl (hst.trans (congrArg Status.halted (beq_iff_eq.mp h))))
  | fatal kind info => exact .inr (.inr ⟨kind, info, hst⟩)

/-- Settles O59: the invariant and the parameters hold of the booted state and are kept by every step. -/
theorem everyReachedStateMeetsTheInvariant : Obligations.EveryReachedStateMeetsTheInvariant := by
  intro p program dataAt data n t hp hrun
  have hreached : t.Inv ∧ t.params = p :=
    run_induction (P := fun s => s.Inv ∧ s.params = p)
      (fun s t hs hstep => ⟨everyStepKeepsTheInvariant s t hs.1 hstep, (params_of_step hstep).trans hs.2⟩)
      n _ t ⟨bootMeetsTheInvariant p program dataAt data hp, params_boot ..⟩ hrun
  exact ⟨hreached.1, hreached.2, ending_of_statusPossible hreached.1.status⟩

end Sys2Proof.Proofs
end

section
/-! The remaining statements about shifts, divisions, comparisons and constants (41_alu_reg.md R105, R108 to R110,
R112, R114; 42_alu_imm.md R122, R123, R125 to R127; 30_encoding.md R71). -/

namespace Sys2Proof.Proofs
open Sys2Proof Sys2Proof.Machine Sys2Proof.Claims

/-! ### Shifts -/

theorem shiftAmount_eq (b : Word) : shiftAmount b = b.toNat % 32 := by
  rw [shiftAmount, BitVec.extractLsb'_toNat, Nat.shiftRight_zero]

theorem toNat_alu_sll (a b : Word) : (alu .sll a b).toNat = a.toNat * 2 ^ (b.toNat % 32) % 2 ^ 32 := by
  rw [alu, BitVec.toNat_shiftLeft, Nat.shiftLeft_eq, shiftAmount_eq]

theorem toNat_alu_srl (a b : Word) : (alu .srl a b).toNat = a.toNat / 2 ^ (b.toNat % 32) := by
  rw [alu, BitVec.toNat_ushiftRight, Nat.shiftRight_eq_div_pow, shiftAmount_eq]

theorem toInt_alu_sra (a b : Word) : (alu .sra a b).toInt = a.toInt / 2 ^ (b.toNat % 32) := by
  rw [alu, BitVec.toInt_sshiftRight, Int.shiftRight_eq_div_pow, shiftAmount_eq]
  push_cast
  rfl

/-- Settles O33: the ALU shifts by the low five bits of its second operand. -/
theorem registerShiftsUseTheLowFiveBits : Obligations.RegisterShiftsUseTheLowFiveBits :=
  fun _ _ _ _ hw =>
    ⟨⟨_, setsOnly_alu_of_exec_eq_execReg hw rfl, toNat_alu_sll _ _⟩,
      ⟨_, setsOnly_alu_of_exec_eq_execReg hw rfl, toNat_alu_srl _ _⟩,
      ⟨_, setsOnly_alu_of_exec_eq_execReg hw rfl, toInt_alu_sra _ _⟩⟩

/-- R120: a shift by an immediate writes what the ALU gives for its register and the zero-extended amount. -/
theorem setsOnly_alu_of_exec_eq_execShiftImm {i : Instr} {op : AluOp} {s : State} {rd rs1 : RegIdx}
    {imm : BitVec 12} (hw : writable s rd) (he : exec i s = execShiftImm op rd rs1 imm s) :
    setsOnly i s rd (alu op (s.readReg rs1) (shamt imm)) (s.pc + 4) :=
  setsOnly_of_exec_eq_writeBack hw he

theorem toNat_shamt_mod (imm : BitVec 12) : (shamt imm).toNat % 32 = imm.toNat % 32 := by
  rw [toNat_shamt, Nat.mod_mod]

/-- Settles O40: the amount is the immediate's low five bits. -/
theorem immediateShiftsUseTheLowFiveBits : Obligations.ImmediateShiftsUseTheLowFiveBits := by
  intro s rd rs1 imm hw
  refine ⟨⟨_, setsOnly_alu_of_exec_eq_execShiftImm hw rfl, ?_⟩,
    ⟨_, setsOnly_alu_of_exec_eq_execShiftImm hw rfl, ?_⟩,
    ⟨_, setsOnly_alu_of_exec_eq_execShiftImm hw rfl, ?_⟩⟩
  · rw [toNat_alu_sll, toNat_shamt_mod]
  · rw [toNat_alu_srl, toNat_shamt_mod]
  · rw [toInt_alu_sra, toNat_shamt_mod]

/-! ### SLTI and ORI -/

/-- Settles O39: the extended immediate has the immediate's signed value and repeats its bit 11. -/
theorem sltiOriUseTheSignedImmediate : Obligations.SltiOriUseTheSignedImmediate := by
  intro s rd rs1 imm hw
  refine ⟨?_, ⟨_, setsOnly_alu_of_exec_eq_execImm hw rfl, fun k hk => ?_⟩⟩
  · have hsets : setsOnly (.slti rd rs1 imm) s rd (alu .slt (s.readReg rs1) (sext12 imm)) (s.pc + 4) :=
      setsOnly_alu_of_exec_eq_execImm hw rfl
    rwa [alu, setLessThan, toInt_sext12] at hsets
  · rw [getLsbD_alu_or, getLsbD_sext12 imm hk]

/-! ### Division -/

section Division
variable {a b : Word}

theorem div32_of_zero : div32 a 0 = 0xFFFFFFFF#32 := rfl

theorem rem32_of_zero : rem32 a 0 = a := rfl

theorem div32_of_overflow : div32 0x80000000#32 0xFFFFFFFF#32 = 0x80000000#32 := rfl

theorem rem32_of_overflow : rem32 0x80000000#32 0xFFFFFFFF#32 = 0 := rfl

theorem div32_of_regular (hb : b ≠ 0) (hoverflow : ¬(a = 0x80000000#32 ∧ b = 0xFFFFFFFF#32)) :
    div32 a b = BitVec.ofInt 32 (a.toInt.tdiv b.toInt) := by
  rw [div32, if_neg hb, if_neg hoverflow]

theorem rem32_of_regular (hb : b ≠ 0) (hoverflow : ¬(a = 0x80000000#32 ∧ b = 0xFFFFFFFF#32)) :
    rem32 a b = BitVec.ofInt 32 (a.toInt.tmod b.toInt) := by
  rw [rem32, if_neg hb, if_neg hoverflow, Int.tmod_def]

/-- Only 0x80000000 / -1 leaves the range of a word. -/
theorem toInt_div32 (hb : b ≠ 0) (hoverflow : ¬(a = 0x80000000#32 ∧ b = 0xFFFFFFFF#32)) :
    (div32 a b).toInt = a.toInt.tdiv b.toInt := by
  have hexact : a ≠ BitVec.intMin 32 ∨ b ≠ -1#32 := not_and_or.mp hoverflow
  rw [div32_of_regular hb hoverflow, ← BitVec.toInt_sdiv_of_ne_or_ne a b hexact, BitVec.ofInt_toInt]

theorem toInt_rem32 (hb : b ≠ 0) (hoverflow : ¬(a = 0x80000000#32 ∧ b = 0xFFFFFFFF#32)) :
    (rem32 a b).toInt = a.toInt.tmod b.toInt := by
  rw [rem32_of_regular hb hoverflow, ← BitVec.toInt_srem, BitVec.ofInt_toInt]

/-- R114: in all cases the two results fit together modulo 2^32. -/
theorem div32_mul_add_rem32 (a b : Word) : div32 a b * b + rem32 a b = a := by
  by_cases hb : b = 0
  · subst hb
    rw [rem32_of_zero, mul_zero, zero_add]
  by_cases hoverflow : a = 0x80000000#32 ∧ b = 0xFFFFFFFF#32
  · obtain ⟨rfl, rfl⟩ := hoverflow
    decide
  calc div32 a b * b + rem32 a b
      = BitVec.ofInt 32 (a.toInt.tdiv b.toInt) * BitVec.ofInt 32 b.toInt +
          BitVec.ofInt 32 (a.toInt.tmod b.toInt) := by
        rw [div32_of_regular hb hoverflow, rem32_of_regular hb hoverflow, BitVec.ofInt_toInt]
    _ = BitVec.ofInt 32 (a.toInt.tdiv b.toInt * b.toInt + a.toInt.tmod b.toInt) := by
        rw [BitVec.ofInt_add, BitVec.ofInt_mul]
    _ = a := by rw [Int.mul_comm, Int.mul_tdiv_add_tmod, BitVec.ofInt_toInt]

end Division

/-- A division that raises no ArithmeticFault writes what the ALU gives (R114). -/
theorem setsOnly_alu_of_exec_eq_execDivision {i : Instr} {op : AluOp} {word : Word} {s : State}
    {rd rs1 rs2 : RegIdx} (hw : writable s rd)
    (hregular : ¬(s.params.divCorner = .fatal ∧ divCornerCase (s.readReg rs1) (s.readReg rs2) = true))
    (he : exec i s = execDivision op word rd rs1 rs2 s) :
    setsOnly i s rd (alu op (s.readReg rs1) (s.readReg rs2)) (s.pc + 4) :=
  setsOnly_alu_of_exec_eq_execReg hw (he.trans (execDivision_of_regular hregular op word rd))

/-- Settles O34: away from the corners both write the ALU's value, the exact one. -/
theorem divTruncatesAndRemFollowsTheDividend : Obligations.DivTruncatesAndRemFollowsTheDividend := by
  intro s rd rs1 rs2 hw a b hb hoverflow
  have hregular : ¬(s.params.divCorner = .fatal ∧ divCornerCase a b = true) := fun ⟨_, hc⟩ =>
    not_or.mpr ⟨hb, hoverflow⟩ ((divCornerCase_iff a b).mp hc)
  exact ⟨⟨_, setsOnly_alu_of_exec_eq_execDivision hw hregular rfl, toInt_div32 hb hoverflow⟩,
    ⟨_, setsOnly_alu_of_exec_eq_execDivision hw hregular rfl, toInt_rem32 hb hoverflow⟩⟩

theorem setsOnly_division_of_riscvM {s : State} {rd : RegIdx} (hw : writable s rd)
    (hparam : s.params.divCorner = .riscvM) (rs1 rs2 : RegIdx) :
    setsOnly (.div rd rs1 rs2) s rd (div32 (s.readReg rs1) (s.readReg rs2)) (s.pc + 4) ∧
    setsOnly (.rem rd rs1 rs2) s rd (rem32 (s.readReg rs1) (s.readReg rs2)) (s.pc + 4) := by
  have hregular : ¬(s.params.divCorner = .fatal ∧ divCornerCase (s.readReg rs1) (s.readReg rs2) = true) :=
    fun ⟨hfatal, _⟩ => by cases hparam.symm.trans hfatal
  exact ⟨setsOnly_alu_of_exec_eq_execDivision (op := .div) hw hregular rfl,
    setsOnly_alu_of_exec_eq_execDivision (op := .rem) hw hregular rfl⟩

/-- Settles O35: under RISCV_M both complete, with the corner values of the ALU. -/
theorem divisionCornersUnderRiscvM : Obligations.DivisionCornersUnderRiscvM := by
  intro s rd rs1 rs2 hw hparam
  have hsets := setsOnly_division_of_riscvM hw hparam rs1 rs2
  refine ⟨fun hb => ?_, fun ⟨ha, hb⟩ => ?_⟩
  · rwa [hb, div32_of_zero, rem32_of_zero] at hsets
  · rwa [ha, hb, div32_of_overflow, rem32_of_overflow] at hsets

/-- Settles O37: the two results written are the ALU's, which fit together in all cases. -/
theorem quotientTimesDivisorPlusRemainder : Obligations.QuotientTimesDivisorPlusRemainder := by
  intro s rd rs1 rs2 hw hparam
  obtain ⟨hdiv, hrem⟩ := setsOnly_division_of_riscvM hw hparam rs1 rs2
  exact ⟨_, _, hdiv, hrem, div32_mul_add_rem32 _ _⟩

/-- Settles O36: under FATAL the corner case is tested before anything is written. -/
theorem divisionCornersUnderFatal : Obligations.DivisionCornersUnderFatal := by
  intro s rd rs1 rs2 hparam hcorner
  have hc := (divCornerCase_iff (s.readReg rs1) (s.readReg rs2)).mpr hcorner
  exact ⟨execDivision_of_corner hparam hc .div _ rd, execDivision_of_corner hparam hc .rem _ rd⟩

/-! ### The pair LUI, ADDI -/

theorem upperImmediate_extract {w : Word} (h : w.toNat % 2 ^ 12 = 0) : upperImmediate (w.extractLsb' 12 20) = w := by
  have hlt := w.isLt
  refine BitVec.eq_of_toNat_eq ?_
  rw [toNat_upperImmediate, BitVec.extractLsb'_toNat, Nat.shiftRight_eq_div_pow]
  omega

/-- R71: what the extended low half does not give lies in bits 31:12. -/
theorem toNat_sub_sext12_mod (v : Word) : (v - sext12 (v.extractLsb' 0 12)).toNat % 2 ^ 12 = 0 := by
  have hlow : (sext12 (v.extractLsb' 0 12)).toNat % 2 ^ 12 = v.toNat % 2 ^ 12 := by
    rw [sext12_eq_signExtend, BitVec.toNat_signExtend, BitVec.toNat_setWidth, BitVec.extractLsb'_toNat,
      Nat.shiftRight_zero]
    split <;> omega
  rw [BitVec.toNat_sub]
  omega

theorem add_four_add_four (pc : Word) : pc + 4 + 4 = pc + 8 := BitVec.add_assoc pc 4 4

/-- Settles O42: LUI leaves the upper part in rd, and ADDI completes it to the constant. -/
theorem loadImmediatePairGivesTheConstant : Obligations.LoadImmediatePairGivesTheConstant := by
  intro s rd v hw _
  obtain ⟨t, ht, hupper, -, hpc, -, -, -, hparams⟩ :
      setsOnly (.lui rd ((v - sext12 (v.extractLsb' 0 12)).extractLsb' 12 20)) s rd _ (s.pc + 4) :=
    setsOnly_of_exec_eq_writeBack hw rfl
  rw [upperImmediate_extract (toNat_sub_sext12_mod v)] at hupper
  have hwt : writable t rd := by rwa [writable, hparams]
  have hsets : setsOnly (.addi rd rd (v.extractLsb' 0 12)) t rd _ (t.pc + 4) :=
    setsOnly_alu_of_exec_eq_execImm (op := .add) hwt rfl
  rw [hupper, hpc, alu, BitVec.sub_add_cancel, add_four_add_four] at hsets
  exact ⟨_, _, t, rfl, ht, hsets⟩

end Sys2Proof.Proofs
end

section
/-! The statements about loads, stores and the fetch after a store (44_load_store.md R152 to R158; 20_memory.md R32 to
R34, R46). -/

namespace Sys2Proof.Proofs
open Sys2Proof Sys2Proof.Machine Sys2Proof.Claims

/-! ### Loads -/

theorem loadAddress_eq (s : State) (rs1 : RegIdx) (imm : BitVec 12) :
    s.loadAddress rs1 imm = s.readReg rs1 + imm.signExtend 32 := by
  rw [State.loadAddress, sext12_eq_signExtend]

/-- R152 to R154: a load inside memory writes the bytes read, zero-extended. -/
theorem setsOnly_readLE_of_exec_eq_execLoad {i : Instr} {w : Width} {s : State} {rd rs1 : RegIdx}
    {imm : BitVec 12} (hw : writable s rd) (he : exec i s = execLoad w rd rs1 imm s)
    (hin : (s.loadAddress rs1 imm).toNat + widthBytes w ≤ s.params.memSize) :
    setsOnly i s rd (s.mem.readLE (s.loadAddress rs1 imm).toNat (widthBytes w)) (s.pc + 4) :=
  setsOnly_of_exec_eq_writeBack hw (he.trans (execLoad_of_inBounds ((inBounds_iff ..).mpr hin) rd))

theorem toNat_readLE_one (m : Memory) (a : Nat) : (m.readLE a 1).toNat = (m.readByte a).toNat := by
  rw [toNat_eq_bytes]
  simp [Memory.byteOf_readLE]

theorem toNat_readLE_two (m : Memory) (a : Nat) :
    (m.readLE a 2).toNat = (m.readByte a).toNat + 256 * (m.readByte (a + 1)).toNat := by
  rw [toNat_eq_bytes]
  simp [Memory.byteOf_readLE]

theorem toNat_readLE_four (m : Memory) (a : Nat) :
    (m.readLE a 4).toNat = (m.readByte a).toNat + 2 ^ 8 * (m.readByte (a + 1)).toNat
      + 2 ^ 16 * (m.readByte (a + 2)).toNat + 2 ^ 24 * (m.readByte (a + 3)).toNat := by
  rw [toNat_eq_bytes]
  simp [Memory.byteOf_readLE]

/-- Settles O45: LW writes the four bytes read. -/
theorem loadWordReadsFourBytes : Obligations.LoadWordReadsFourBytes := by
  intro s rd rs1 imm hw ea byte hin
  have hea : s.loadAddress rs1 imm = ea := loadAddress_eq s rs1 imm
  have hsets := setsOnly_readLE_of_exec_eq_execLoad (i := .lw rd rs1 imm) hw rfl (hea ▸ hin)
  exact ⟨_, hsets, by rw [hea]; exact toNat_readLE_four s.mem ea.toNat⟩

/-- Settles O46: LB and LH write the one or two bytes read; the word's other bytes are zero. -/
theorem subWordLoadsZeroExtend : Obligations.SubWordLoadsZeroExtend := by
  intro s rd rs1 imm hw ea byte
  have hea : s.loadAddress rs1 imm = ea := loadAddress_eq s rs1 imm
  refine ⟨fun hin => ?_, fun hin => ?_⟩
  · have hsets := setsOnly_readLE_of_exec_eq_execLoad (i := .lb rd rs1 imm) hw rfl (hea ▸ hin)
    exact ⟨_, hsets, by rw [hea]; exact toNat_readLE_one s.mem ea.toNat⟩
  · have hsets := setsOnly_readLE_of_exec_eq_execLoad (i := .lh rd rs1 imm) hw rfl (hea ▸ hin)
    exact ⟨_, hsets, by rw [hea]; exact toNat_readLE_two s.mem ea.toNat⟩

/-! ### Stores -/

/-- R155 to R157: a store inside memory writes the low bytes of its register, and no other byte. -/
theorem storesOnly_of_exec_eq_execStore {i : Instr} {w : Width} {s : State} {rs1 rs2 : RegIdx}
    {immLo : BitVec 5} {immHi : BitVec 7} (hcanon : s.mem.wf)
    (he : exec i s = execStore w rs1 rs2 immLo immHi s)
    (hin : (s.storeAddress rs1 immLo immHi).toNat + widthBytes w ≤ s.params.memSize) :
    storesOnly i s (s.storeAddress rs1 immLo immHi) (widthBytes w) (s.readReg rs2) := by
  refine ⟨_, he.trans (execStore_of_inBounds ((inBounds_iff ..).mpr hin) rs2), ?_, fun r => ?_, ?_,
    fun k hk => ?_, fun b hb => ?_⟩
  · rw [State.advance_pc, State.setMem_pc]
  · rw [State.readReg_advance, State.readReg_setMem]
  · exact ⟨rfl, rfl, rfl⟩
  · rw [State.advance_mem, State.setMem_mem, Memory.readByte_writeLE hcanon, if_pos (by omega),
      Nat.add_sub_cancel_left, toNat_byteOf]
  · rw [State.advance_mem, State.setMem_mem, Memory.readByte_writeLE hcanon, if_neg (by omega)]

/-- Settles O47: the three stores are the one store, by width. -/
theorem storesWriteTheirLowBytes : Obligations.StoresWriteTheirLowBytes :=
  fun _ _ _ _ _ hcanon => ⟨storesOnly_of_exec_eq_execStore (w := .byte) hcanon rfl,
    storesOnly_of_exec_eq_execStore (w := .half) hcanon rfl,
    storesOnly_of_exec_eq_execStore (w := .word) hcanon rfl⟩

/-! ### Accesses beyond memory -/

theorem inBounds_eq_false {s : State} {a : Word} {w : Width} (h : s.params.memSize < a.toNat + widthBytes w) :
    s.inBounds a w = false :=
  Bool.eq_false_iff.mpr fun hin => Nat.not_le.mpr h ((inBounds_iff s a w).mp hin)

/-- Settles O48: a load or store tests its access before anything else. -/
theorem accessesBeyondMemoryRaiseOutOfBounds : Obligations.AccessesBeyondMemoryRaiseOutOfBounds := by
  intro i s a w haccess hbeyond
  cases i with
  | lb | lh | lw =>
    obtain ⟨rfl, rfl⟩ := Prod.mk.inj (Option.some.inj haccess)
    exact execLoad_of_not_inBounds (inBounds_eq_false hbeyond) _
  | sb | sh | sw =>
    obtain ⟨rfl, rfl⟩ := Prod.mk.inj (Option.some.inj haccess)
    exact execStore_of_not_inBounds (inBounds_eq_false hbeyond) _
  | _ => cases haccess

/-! ### Reading and fetching what was stored -/

theorem toNat_readLE_two_of_holdsWord {m : Memory} {a : Nat} {w : Word} (h : holdsWord m a w) :
    (m.readLE a 2).toNat = w.toNat % 2 ^ 16 := by
  have hlow : (m.readByte a).toNat = w.toNat % 256 := by simpa using h 0 (by decide)
  have hhigh : (m.readByte (a + 1)).toNat = w.toNat / 256 % 256 := by simpa using h 1 (by decide)
  rw [toNat_readLE_two]
  omega

/-- Settles O49: the store leaves the bytes of its word at the address, registers as they were, and the loads
read them there. -/
theorem aLoadReturnsWhatTheStoreWrote : Obligations.ALoadReturnsWhatTheStoreWrote := by
  intro s rs1 rs2 base rd immLo immHi imm hcanon hw haddress hin
  obtain ⟨t, ht, hpc, hregs, ⟨-, -, hparams⟩, hbytes, -⟩ :=
    storesOnly_of_exec_eq_execStore (i := .sw rs1 rs2 immLo immHi) (w := .word) hcanon rfl hin
  have hwt : writable t rd := by rwa [writable, hparams]
  have hload : t.loadAddress base imm = s.storeAddress rs1 immLo immHi := by
    rw [State.loadAddress, hregs, ← State.loadAddress, haddress]
  have hholds : holdsWord t.mem (s.storeAddress rs1 immLo immHi).toNat (s.readReg rs2) := hbytes
  have hlw : setsOnly (.lw rd base imm) t rd (t.mem.readLE (t.loadAddress base imm).toNat 4) (t.pc + 4) :=
    setsOnly_readLE_of_exec_eq_execLoad (w := .word) hwt rfl (by rwa [hload, hparams])
  have hlh : setsOnly (.lh rd base imm) t rd (t.mem.readLE (t.loadAddress base imm).toNat 2) (t.pc + 4) :=
    setsOnly_readLE_of_exec_eq_execLoad (w := .half) hwt rfl (by rw [hload, hparams, widthBytes]; omega)
  rw [hload, hpc, add_four_add_four] at hlw hlh
  rw [readLE_of_holdsWord hholds] at hlw
  exact ⟨t, ht, hlw, _, hlh, toNat_readLE_two_of_holdsWord hholds⟩

/-- Settles O50: the store leaves the instruction's bytes where the next step fetches. -/
theorem aStoredInstructionIsFetchedByTheNextStep : Obligations.AStoredInstructionIsFetchedByTheNextStep := by
  intro s rs1 rs2 immLo immHi i hcanon hrun haddress halign hin hwf hvalue
  obtain ⟨t, ht, hpc, -, ⟨-, hstatus, hparams⟩, hbytes, -⟩ :=
    storesOnly_of_exec_eq_execStore (i := .sw rs1 rs2 immLo immHi) (w := .word) hcanon rfl (haddress ▸ hin)
  rw [haddress, ← hpc, hvalue] at hbytes
  rw [← hpc] at halign hin
  rw [← hparams] at hin
  exact ⟨t, ht, step_of_holdsWord_encode (hstatus.trans hrun) halign hin hbytes hwf⟩

end Sys2Proof.Proofs
end

section
/-! The statements about the console calls and the exit (45_system.md R161 to R165): the printed forms, and the call
each number makes. -/

namespace Sys2Proof.Proofs
open Sys2Proof Sys2Proof.Machine Sys2Proof.Claims

/-! ### The call of each number -/

/-- R160: whatever its ignored bits, ECALL makes the call of the number in x10. -/
theorem exec_ecall {s : State} {n : Word} (h : s.readReg 10 = n) (rd : RegIdx) (funct3 : BitVec 3) (rs1 : RegIdx)
    (imm : BitVec 12) : exec (.ecall rd funct3 rs1 imm) s = syscall n s :=
  congrArg (syscall · s) h

theorem syscall_one (s : State) : syscall 1 s = print (decimal (s.readReg 11)) s := rfl

theorem syscall_four (s : State) : syscall 4 s = print (s.cstring (s.readReg 11)) s := rfl

theorem syscall_ten (s : State) : syscall 10 s = halt 0 s := rfl

theorem syscall_eleven (s : State) : syscall 11 s = print [(s.readReg 11).setWidth 8] s := rfl

/-- Printing appends to the console, goes on to the next instruction, and leaves all else. -/
theorem printsOnly_of_exec_eq_print {i : Instr} {s : State} {bytes : List Byte} (he : exec i s = print bytes s) :
    printsOnly i s bytes :=
  ⟨_, he, rfl, rfl, fun _ => rfl, fun _ => rfl, rfl, rfl⟩

/-- Settles O54: call 10 is the halt with code 0. -/
theorem ecallExitHaltsWithCodeZero : Obligations.EcallExitHaltsWithCodeZero :=
  fun s rd funct3 rs1 imm h => (exec_ecall h rd funct3 rs1 imm).trans (syscall_ten s)

/-- Settles O53: call 11 prints the register cut to a byte. -/
theorem ecallPrintsOneCharacter : Obligations.EcallPrintsOneCharacter :=
  fun s rd funct3 rs1 imm h =>
    ⟨_, printsOnly_of_exec_eq_print ((exec_ecall h rd funct3 rs1 imm).trans (syscall_eleven s)),
      BitVec.toNat_setWidth 8 (s.readReg 11)⟩

/-! ### Decimal digits -/

theorem toNat_digitByte {d : Nat} (h : d < 10) : (digitByte d).toNat = 0x30 + d := by
  rw [digitByte, BitVec.toNat_ofNat, Nat.mod_eq_of_lt (by omega)]

theorem decimalDigits_of_lt {n : Nat} (h : n < 10) (fuel : Nat) : decimalDigits (fuel + 1) n = [digitByte n] :=
  if_pos h

theorem decimalDigits_of_le {n : Nat} (h : 10 ≤ n) (fuel : Nat) :
    decimalDigits (fuel + 1) n = decimalDigits fuel (n / 10) ++ [digitByte (n % 10)] :=
  if_neg (Nat.not_lt.mpr h)

theorem decimalDigits_ne_nil (fuel n : Nat) : decimalDigits (fuel + 1) n ≠ [] := by
  rcases Nat.lt_or_ge n 10 with h | h
  · rw [decimalDigits_of_lt h]
    exact List.cons_ne_nil _ _
  · rw [decimalDigits_of_le h]
    exact List.append_ne_nil_of_right_ne_nil _ (List.cons_ne_nil _ _)

theorem digit_of_mem_decimalDigits {fuel n : Nat} {d : Byte} (h : d ∈ decimalDigits fuel n) :
    0x30 ≤ d.toNat ∧ d.toNat ≤ 0x39 := by
  induction fuel generalizing n with
  | zero => cases h
  | succ fuel ih =>
    rcases Nat.lt_or_ge n 10 with hn | hn
    · rw [decimalDigits_of_lt hn, List.mem_singleton] at h
      rw [h, toNat_digitByte hn]
      omega
    · rw [decimalDigits_of_le hn, List.mem_append, List.mem_singleton] at h
      rcases h with h | rfl
      · exact ih h
      · rw [toNat_digitByte (Nat.mod_lt n (by decide))]
        omega

theorem digitsValue_append_digitByte (digits : List Byte) {d : Nat} (h : d < 10) :
    digitsValue (digits ++ [digitByte d]) = 10 * digitsValue digits + d := by
  rw [digitsValue, List.foldl_append, ← digitsValue, List.foldl_cons, List.foldl_nil, toNat_digitByte h,
    Nat.add_sub_cancel_left]

theorem div_ten_lt_of_lt_pow {fuel n : Nat} (h : n < 10 ^ (fuel + 1)) : n / 10 < 10 ^ fuel :=
  Nat.div_lt_of_lt_mul (by rwa [Nat.pow_succ'] at h)

/-- With fuel for all of them, the digits stand for the number. -/
theorem digitsValue_decimalDigits {fuel n : Nat} (h : n < 10 ^ fuel) : digitsValue (decimalDigits fuel n) = n := by
  induction fuel generalizing n with
  | zero =>
    obtain rfl : n = 0 := Nat.lt_one_iff.mp h
    rfl
  | succ fuel ih =>
    rcases Nat.lt_or_ge n 10 with hn | hn
    · rw [decimalDigits_of_lt hn, ← List.nil_append [digitByte n], digitsValue_append_digitByte _ hn]
      exact Nat.zero_add n
    · have hquot := div_ten_lt_of_lt_pow h
      rw [decimalDigits_of_le hn, digitsValue_append_digitByte _ (Nat.mod_lt n (by decide)), ih hquot]
      exact Nat.div_add_mod n 10

/-- The first digit of a number other than 0 is not 0. -/
theorem head?_decimalDigits_ne_zero {fuel n : Nat} (h : n < 10 ^ fuel) (h0 : n ≠ 0) :
    (decimalDigits fuel n).head? ≠ some 0x30 := by
  induction fuel generalizing n with
  | zero => exact absurd (Nat.lt_one_iff.mp h) h0
  | succ fuel ih =>
    rcases Nat.lt_or_ge n 10 with hn | hn
    · rw [decimalDigits_of_lt hn, List.head?_cons]
      intro heq
      have hbyte : (digitByte n).toNat = 0x30 := by rw [Option.some.inj heq]; rfl
      rw [toNat_digitByte hn] at hbyte
      omega
    · have hquot := div_ten_lt_of_lt_pow h
      have hne : n / 10 ≠ 0 := by omega
      cases fuel with
      | zero => exact absurd (Nat.lt_one_iff.mp hquot) hne
      | succ fuel =>
        rw [decimalDigits_of_le hn, List.head?_append_of_ne_nil _ (decimalDigits_ne_nil fuel _)]
        exact ih hquot hne

/-- R162: a leading zero is the whole number 0. -/
theorem decimalDigits_of_head?_zero {fuel n : Nat} (h : n < 10 ^ (fuel + 1))
    (hhead : (decimalDigits (fuel + 1) n).head? = some 0x30) : decimalDigits (fuel + 1) n = [0x30] := by
  by_cases h0 : n = 0
  · subst h0
    rfl
  · exact absurd hhead (head?_decimalDigits_ne_zero h h0)

/-- R162: the sign, then the digits of the magnitude. -/
theorem decimal_eq (v : Word) :
    decimal v = (if v.toInt < 0 then [0x2D] else []) ++ decimalDigits 10 v.toInt.natAbs := by
  rw [decimal]
  split <;> rfl

/-- Ten digits are enough for a word. -/
theorem natAbs_toInt_lt (v : Word) : v.toInt.natAbs < 10 ^ 10 := by
  have hl := BitVec.le_toInt v
  have hh := BitVec.toInt_lt (x := v)
  omega

/-- Settles O51: call 1 prints the decimal form, whose digits are in range, have no leading zero and stand for
the magnitude. -/
theorem ecallPrintsASignedDecimal : Obligations.EcallPrintsASignedDecimal := by
  intro s rd funct3 rs1 imm h
  have hfuel := natAbs_toInt_lt (s.readReg 11)
  refine ⟨decimalDigits 10 (s.readReg 11).toInt.natAbs, printsOnly_of_exec_eq_print ?_, decimalDigits_ne_nil 9 _,
    fun d hd => digit_of_mem_decimalDigits hd, decimalDigits_of_head?_zero hfuel, digitsValue_decimalDigits hfuel⟩
  rw [exec_ecall h, syscall_one, decimal_eq]

/-! ### Strings -/

/-- R163: the bytes up to the first zero, or all that are left. -/
theorem exists_end_of_stringBytes (m : Memory) (left a : Nat) : ∃ e, a ≤ e ∧ e ≤ a + left ∧
    (e = a + left ∨ m.readByte e = 0) ∧ (∀ b, a ≤ b → b < e → m.readByte b ≠ 0) ∧
    stringBytes m left a = (List.range' a (e - a)).map m.readByte := by
  induction left generalizing a with
  | zero =>
    refine ⟨a, Nat.le_refl a, Nat.le_refl a, .inl rfl, fun b hl hh => ?_, ?_⟩
    · omega
    · rw [Nat.sub_self]
      rfl
  | succ left ih =>
    by_cases hzero : m.readByte a = 0
    · refine ⟨a, Nat.le_refl a, Nat.le_add_right a _, .inr hzero, fun b hl hh => ?_, ?_⟩
      · omega
      · rw [stringBytes, if_pos hzero, Nat.sub_self]
        rfl
    · obtain ⟨e, hl, hh, hend, hbytes, heq⟩ := ih (a + 1)
      refine ⟨e, by omega, by omega, hend.imp_left (by omega), fun b hb he => ?_, ?_⟩
      · rcases Nat.eq_or_lt_of_le hb with rfl | hb
        · exact hzero
        · exact hbytes b hb he
      · rw [stringBytes, if_neg hzero, heq, show e - a = e - (a + 1) + 1 by omega]
        rfl

/-- Settles O52: the string ends at the first zero byte or when the bytes of memory run out. -/
theorem ecallPrintsTheStringUpToZeroOrTheBound : Obligations.EcallPrintsTheStringUpToZeroOrTheBound := by
  intro s rd funct3 rs1 imm h a
  obtain ⟨e, hl, hh, hend, hbytes, heq⟩ := exists_end_of_stringBytes s.mem (s.params.memSize - a) a
  refine ⟨e, hl, hend.imp_left (by omega), fun b hb he => ⟨by omega, hbytes b hb he⟩, ?_⟩
  rw [← heq]
  exact printsOnly_of_exec_eq_print ((exec_ecall h rd funct3 rs1 imm).trans (syscall_four s))

end Sys2Proof.Proofs
end
